-- ==== Sys2Proof/Word.lean ====
section
/-! DEFINITION. The widths of the machine's data (10_state.md R20, R23, R24; 30_encoding.md R90, R91). -/

namespace Sys2Proof

/-- A register, a memory cell, a timer or an immediate NN: 8 bits, unsigned (R13, R20, R61). -/
abbrev Byte := BitVec 8

/-- I, PC, a stack slot or an instruction word: 16 bits (R23, R24, R25, R90). -/
abbrev Word := BitVec 16

/-- A nibble of an instruction word, or a key number: 4 bits (R91, R252). -/
abbrev Nibble := BitVec 4

/-- The number of a general register, V0..VF (R20). -/
abbrev Reg := Fin 16

/-- V15, the flag register (R21). -/
abbrev vF : Reg := 15

end Sys2Proof
end

