-- ==== Sys2Proof/Machine/Flags.lean ====
section
/-! DEFINITION. The values VF takes as a flag (10_state.md R22, 42_arith_logic.md R143). -/

namespace Sys2Proof.Machine

/-- `bool ? 1 : 0` (R13). -/
def flagOf (p : Bool) : Byte := if p then 1 else 0

/-- Carry of 8XY4: the exact sum is over 255 (R143, R148). -/
def carryFlag (a b : Byte) : Byte := flagOf (255 < a.toNat + b.toNat)

/-- No borrow of `a - b`: the minuend is at least the subtrahend; equal operands do not borrow (R143, R149, R151, C9). -/
def noBorrowFlag (a b : Byte) : Byte := flagOf (b.toNat ≤ a.toNat)

/-- The bit a right shift by one puts out, bit 0 (R150). -/
def shrFlag (src : Byte) : Byte := flagOf (src.getLsbD 0)

/-- The bit a left shift by one puts out, bit 7 (R152). -/
def shlFlag (src : Byte) : Byte := flagOf (src.getLsbD 7)

/-- The flag of DXYN: 1 if the draw collided (R194). -/
def collisionFlag (collided : Bool) : Byte := flagOf collided

end Sys2Proof.Machine
end

