-- ==== Sys2Proof/Syntax.lean ====
section
/-! DEFINITION. The 34 instructions of 30_encoding.md R95, one constructor per row of spec/opcode_table.json. -/

namespace Sys2Proof

/-- An instruction. `x` and `y` are register numbers (R94), `nn` is the byte immediate NN, `addr` is `zext_16(NNN)`, the
16-bit form in which the address meets PC and I (R93), and `n` is the row count N (R91). That `addr` fits 12 bits and `n`
fits 4 is `Instr.wellFormed`. -/
inductive Instr where
  /-- 00E0 CLS (R192). -/
  | cls
  /-- 00EE RET (R124). -/
  | ret
  /-- 1NNN JP addr (R121). -/
  | jp (addr : Word)
  /-- 2NNN CALL addr (R123). -/
  | call (addr : Word)
  /-- 3XNN SE Vx, byte (R125). -/
  | seByte (x : Reg) (nn : Byte)
  /-- 4XNN SNE Vx, byte (R126). -/
  | sneByte (x : Reg) (nn : Byte)
  /-- 5XY0 SE Vx, Vy (R127). -/
  | seReg (x y : Reg)
  /-- 6XNN LD Vx, byte (R141). -/
  | ldByte (x : Reg) (nn : Byte)
  /-- 7XNN ADD Vx, byte (R142). -/
  | addByte (x : Reg) (nn : Byte)
  /-- 8XY0 LD Vx, Vy (R144). -/
  | ldReg (x y : Reg)
  /-- 8XY1 OR Vx, Vy (R145). -/
  | orReg (x y : Reg)
  /-- 8XY2 AND Vx, Vy (R146). -/
  | andReg (x y : Reg)
  /-- 8XY3 XOR Vx, Vy (R147). -/
  | xorReg (x y : Reg)
  /-- 8XY4 ADD Vx, Vy (R148). -/
  | addReg (x y : Reg)
  /-- 8XY5 SUB Vx, Vy (R149). -/
  | subReg (x y : Reg)
  /-- 8XY6 SHR Vx, Vy (R150). -/
  | shr (x y : Reg)
  /-- 8XY7 SUBN Vx, Vy (R151). -/
  | subnReg (x y : Reg)
  /-- 8XYE SHL Vx, Vy (R152). -/
  | shl (x y : Reg)
  /-- 9XY0 SNE Vx, Vy (R128). -/
  | sneReg (x y : Reg)
  /-- ANNN LD I, addr (R171). -/
  | ldI (addr : Word)
  /-- BNNN JP V0, addr (R122). -/
  | jpV0 (addr : Word)
  /-- CXNN RND Vx, byte (R191). -/
  | rnd (x : Reg) (nn : Byte)
  /-- DXYN DRW Vx, Vy, nibble (R194). -/
  | drw (x y : Reg) (n : Nat)
  /-- EX9E SKP Vx (R212). -/
  | skp (x : Reg)
  /-- EXA1 SKNP Vx (R213). -/
  | sknp (x : Reg)
  /-- FX07 LD Vx, DT (R215). -/
  | ldVxDt (x : Reg)
  /-- FX0A LD Vx, K (R214). -/
  | ldVxK (x : Reg)
  /-- FX15 LD DT, Vx (R216). -/
  | ldDtVx (x : Reg)
  /-- FX18 LD ST, Vx (R218). -/
  | ldStVx (x : Reg)
  /-- FX1E ADD I, Vx (R172). -/
  | addIVx (x : Reg)
  /-- FX29 LD F, Vx (R177). -/
  | ldFVx (x : Reg)
  /-- FX33 LD B, Vx (R176). -/
  | ldBVx (x : Reg)
  /-- FX55 LD [I], Vx (R174). -/
  | storeRegs (x : Reg)
  /-- FX65 LD Vx, [I] (R175). -/
  | loadRegs (x : Reg)
  deriving DecidableEq, Repr

end Sys2Proof
end

