-- ==== Sys2Proof/WellFormed.lean ====
section
/-! DEFINITION. Which instruction terms some word encodes: the address fits the 12 bits of NNN and the row count the 4 bits
of N (30_encoding.md R91, R93). Registers and bytes are bounded by their types. -/

namespace Sys2Proof

/-- `addr` is a value of the 12-bit field NNN, zero-extended (R93). -/
def Word.fitsAddr (addr : Word) : Bool := addr.toNat < 4096

/-- `n` is a value of the 4-bit field N (R93). -/
def fitsRows (n : Nat) : Bool := n < 16

/-- The instruction has an encoding. -/
def Instr.wellFormed : Instr → Bool
  | .cls => true
  | .ret => true
  | .jp addr => addr.fitsAddr
  | .call addr => addr.fitsAddr
  | .seByte _ _ => true
  | .sneByte _ _ => true
  | .seReg _ _ => true
  | .ldByte _ _ => true
  | .addByte _ _ => true
  | .ldReg _ _ => true
  | .orReg _ _ => true
  | .andReg _ _ => true
  | .xorReg _ _ => true
  | .addReg _ _ => true
  | .subReg _ _ => true
  | .shr _ _ => true
  | .subnReg _ _ => true
  | .shl _ _ => true
  | .sneReg _ _ => true
  | .ldI addr => addr.fitsAddr
  | .jpV0 addr => addr.fitsAddr
  | .rnd _ _ => true
  | .drw _ _ n => fitsRows n
  | .skp _ => true
  | .sknp _ => true
  | .ldVxDt _ => true
  | .ldVxK _ => true
  | .ldDtVx _ => true
  | .ldStVx _ => true
  | .addIVx _ => true
  | .ldFVx _ => true
  | .ldBVx _ => true
  | .storeRegs _ => true
  | .loadRegs _ => true

end Sys2Proof
end

