-- ==== Sys2Proof/Decode.lean ====
section
/-! DEFINITION. Decoding (30_encoding.md R90 to R100): a word is split into four nibbles (R91), the nibbles are dispatched
to an instruction or a named rejection (R96, R97), and the encoder writes the word of an instruction from the same table. -/

namespace Sys2Proof

/-- The four fields of a word, most significant first (R39, R91). -/
structure Nibbles where
  n0 : Nibble
  n1 : Nibble
  n2 : Nibble
  n3 : Nibble
  deriving DecidableEq, Repr

/-- Why no instruction is read: one name for each row of R97, and one for a byte list that ends inside a word. -/
inductive DecodeError where
  /-- 0NNN other than 00E0 and 00EE: no machine-code call (R97, R99). -/
  | machineCall
  /-- 5XYN with N not 0 (R97). -/
  | seRegLowNibble
  /-- 8XYN with N in 8..D or F (R97). -/
  | aluSubOpcode
  /-- 9XYN with N not 0 (R97). -/
  | sneRegLowNibble
  /-- EXNN with NN neither 9E nor A1 (R97). -/
  | keySubOpcode
  /-- FXNN with NN outside the nine sub-opcodes (R97). -/
  | miscSubOpcode
  /-- Fewer than two bytes: no instruction word (R90). -/
  | truncated
  deriving DecidableEq, Repr

/-- `n0 = w[15:12]`, `n1 = w[11:8]`, `n2 = w[7:4]`, `n3 = w[3:0]` (R91). It has no failure mode (R39). -/
def splitWord (w : Word) : Nibbles :=
  ⟨w.extractLsb' 12 4, w.extractLsb' 8 4, w.extractLsb' 4 4, w.extractLsb' 0 4⟩

/-- Recompose the four nibbles into a word (R103). -/
def joinNibbles (f : Nibbles) : Word := f.n0 ++ f.n1 ++ f.n2 ++ f.n3

/-- The register a nibble selects (R94). -/
def regOf (k : Nibble) : Reg := k.toFin

/-- The nibble that selects a register (R94). -/
def regNibble (r : Reg) : Nibble := BitVec.ofFin r

/-- X, the first register index (R91). -/
def Nibbles.x (f : Nibbles) : Reg := regOf f.n1

/-- Y, the second register index (R91). -/
def Nibbles.y (f : Nibbles) : Reg := regOf f.n2

/-- NN = {n2, n3} (R91, R93). -/
def Nibbles.nn (f : Nibbles) : Byte := f.n2 ++ f.n3

/-- `zext_16(NNN)` with NNN = {n1, n2, n3} (R91, R93). -/
def Nibbles.addr (f : Nibbles) : Word := (f.n1 ++ f.n2 ++ f.n3).setWidth 16

/-- N = n3 as a row count (R91, R93). -/
def Nibbles.rows (f : Nibbles) : Nat := f.n3.toNat

/-- The sub-opcodes of 8XYs (R95 rows 10 to 18). -/
def dispatchAlu (f : Nibbles) : Except DecodeError Instr :=
  match f.n3.toNat with
  | 0x0 => .ok (.ldReg f.x f.y)
  | 0x1 => .ok (.orReg f.x f.y)
  | 0x2 => .ok (.andReg f.x f.y)
  | 0x3 => .ok (.xorReg f.x f.y)
  | 0x4 => .ok (.addReg f.x f.y)
  | 0x5 => .ok (.subReg f.x f.y)
  | 0x6 => .ok (.shr f.x f.y)
  | 0x7 => .ok (.subnReg f.x f.y)
  | 0xE => .ok (.shl f.x f.y)
  | _ => .error .aluSubOpcode

/-- The sub-opcodes of FXss (R95 rows 26 to 34). -/
def dispatchMisc (f : Nibbles) : Except DecodeError Instr :=
  match f.nn.toNat with
  | 0x07 => .ok (.ldVxDt f.x)
  | 0x0A => .ok (.ldVxK f.x)
  | 0x15 => .ok (.ldDtVx f.x)
  | 0x18 => .ok (.ldStVx f.x)
  | 0x1E => .ok (.addIVx f.x)
  | 0x29 => .ok (.ldFVx f.x)
  | 0x33 => .ok (.ldBVx f.x)
  | 0x55 => .ok (.storeRegs f.x)
  | 0x65 => .ok (.loadRegs f.x)
  | _ => .error .miscSubOpcode

/-- "A lookup keyed by (primary nibble, secondary discriminant)" (R96). The last arm is n0 = 0xF. -/
def dispatch (f : Nibbles) : Except DecodeError Instr :=
  match f.n0.toNat with
  | 0x0 =>
    if f = ⟨0x0, 0x0, 0xE, 0x0⟩ then .ok .cls
    else if f = ⟨0x0, 0x0, 0xE, 0xE⟩ then .ok .ret
    else .error .machineCall
  | 0x1 => .ok (.jp f.addr)
  | 0x2 => .ok (.call f.addr)
  | 0x3 => .ok (.seByte f.x f.nn)
  | 0x4 => .ok (.sneByte f.x f.nn)
  | 0x5 => if f.n3 = 0 then .ok (.seReg f.x f.y) else .error .seRegLowNibble
  | 0x6 => .ok (.ldByte f.x f.nn)
  | 0x7 => .ok (.addByte f.x f.nn)
  | 0x8 => dispatchAlu f
  | 0x9 => if f.n3 = 0 then .ok (.sneReg f.x f.y) else .error .sneRegLowNibble
  | 0xA => .ok (.ldI f.addr)
  | 0xB => .ok (.jpV0 f.addr)
  | 0xC => .ok (.rnd f.x f.nn)
  | 0xD => .ok (.drw f.x f.y f.rows)
  | 0xE =>
    if f.nn = 0x9E then .ok (.skp f.x)
    else if f.nn = 0xA1 then .ok (.sknp f.x)
    else .error .keySubOpcode
  | _ => dispatchMisc f

/-- `Decode(w)` (R96). -/
def decode (w : Word) : Except DecodeError Instr := dispatch (splitWord w)

/-- The word of two consecutive bytes, the lower address the high byte: `{hi, lo}` (R64). -/
def wordOf (hi lo : Byte) : Word := hi ++ lo

/-- The two bytes of a word as memory holds them, the high byte first (R64). -/
def bytesOf (w : Word) : List Byte := [w.extractLsb' 8 8, w.extractLsb' 0 8]

/-- Decode the front of a byte list; the rest of the list is given back. Every instruction is two bytes (R90). -/
def decodeBytes : List Byte → Except DecodeError (Instr × List Byte)
  | hi :: lo :: rest => (decode (wordOf hi lo)).map fun i => (i, rest)
  | _ => .error .truncated

/-- Format A: a primary nibble and NNN (R92). -/
def formatA (op : Nibble) (addr : Word) : Nibbles :=
  ⟨op, addr.extractLsb' 8 4, addr.extractLsb' 4 4, addr.extractLsb' 0 4⟩

/-- Format XNN: a primary nibble, X and NN (R92). -/
def formatXNN (op : Nibble) (x : Reg) (nn : Byte) : Nibbles :=
  ⟨op, regNibble x, nn.extractLsb' 4 4, nn.extractLsb' 0 4⟩

/-- Formats XYs and XYN: a primary nibble, X, Y and the last nibble (R92). -/
def formatXY (op : Nibble) (x y : Reg) (s : Nibble) : Nibbles := ⟨op, regNibble x, regNibble y, s⟩

/-- The four nibbles of an instruction, from the patterns of R95. -/
def Instr.nibbles : Instr → Nibbles
  | .cls => ⟨0x0, 0x0, 0xE, 0x0⟩
  | .ret => ⟨0x0, 0x0, 0xE, 0xE⟩
  | .jp addr => formatA 0x1 addr
  | .call addr => formatA 0x2 addr
  | .seByte x nn => formatXNN 0x3 x nn
  | .sneByte x nn => formatXNN 0x4 x nn
  | .seReg x y => formatXY 0x5 x y 0x0
  | .ldByte x nn => formatXNN 0x6 x nn
  | .addByte x nn => formatXNN 0x7 x nn
  | .ldReg x y => formatXY 0x8 x y 0x0
  | .orReg x y => formatXY 0x8 x y 0x1
  | .andReg x y => formatXY 0x8 x y 0x2
  | .xorReg x y => formatXY 0x8 x y 0x3
  | .addReg x y => formatXY 0x8 x y 0x4
  | .subReg x y => formatXY 0x8 x y 0x5
  | .shr x y => formatXY 0x8 x y 0x6
  | .subnReg x y => formatXY 0x8 x y 0x7
  | .shl x y => formatXY 0x8 x y 0xE
  | .sneReg x y => formatXY 0x9 x y 0x0
  | .ldI addr => formatA 0xA addr
  | .jpV0 addr => formatA 0xB addr
  | .rnd x nn => formatXNN 0xC x nn
  | .drw x y n => formatXY 0xD x y (BitVec.ofNat 4 n)
  | .skp x => formatXNN 0xE x 0x9E
  | .sknp x => formatXNN 0xE x 0xA1
  | .ldVxDt x => formatXNN 0xF x 0x07
  | .ldVxK x => formatXNN 0xF x 0x0A
  | .ldDtVx x => formatXNN 0xF x 0x15
  | .ldStVx x => formatXNN 0xF x 0x18
  | .addIVx x => formatXNN 0xF x 0x1E
  | .ldFVx x => formatXNN 0xF x 0x29
  | .ldBVx x => formatXNN 0xF x 0x33
  | .storeRegs x => formatXNN 0xF x 0x55
  | .loadRegs x => formatXNN 0xF x 0x65

/-- The word of an instruction (R92, R95). -/
def encode (i : Instr) : Word := joinNibbles i.nibbles

/-- The fixed nibbles of an instruction's row, as the mask of spec/opcode_table.json has them (R95). -/
def Instr.rowMask : Instr → Word
  | .cls | .ret => 0xFFFF
  | .jp _ | .call _ | .ldI _ | .jpV0 _ => 0xF000
  | .seByte _ _ | .sneByte _ _ | .ldByte _ _ | .addByte _ _ | .rnd _ _ => 0xF000
  | .drw _ _ _ => 0xF000
  | .seReg _ _ | .sneReg _ _ | .ldReg _ _ | .orReg _ _ | .andReg _ _ | .xorReg _ _ => 0xF00F
  | .addReg _ _ | .subReg _ _ | .subnReg _ _ | .shr _ _ | .shl _ _ => 0xF00F
  | .skp _ | .sknp _ | .ldVxDt _ | .ldVxK _ | .ldDtVx _ | .ldStVx _ => 0xF0FF
  | .addIVx _ | .ldFVx _ | .ldBVx _ | .storeRegs _ | .loadRegs _ => 0xF0FF

/-- The value of the fixed nibbles, as the match of spec/opcode_table.json has it (R95). -/
def Instr.rowMatch : Instr → Word
  | .cls => 0x00E0
  | .ret => 0x00EE
  | .jp _ => 0x1000
  | .call _ => 0x2000
  | .seByte _ _ => 0x3000
  | .sneByte _ _ => 0x4000
  | .seReg _ _ => 0x5000
  | .ldByte _ _ => 0x6000
  | .addByte _ _ => 0x7000
  | .ldReg _ _ => 0x8000
  | .orReg _ _ => 0x8001
  | .andReg _ _ => 0x8002
  | .xorReg _ _ => 0x8003
  | .addReg _ _ => 0x8004
  | .subReg _ _ => 0x8005
  | .shr _ _ => 0x8006
  | .subnReg _ _ => 0x8007
  | .shl _ _ => 0x800E
  | .sneReg _ _ => 0x9000
  | .ldI _ => 0xA000
  | .jpV0 _ => 0xB000
  | .rnd _ _ => 0xC000
  | .drw _ _ _ => 0xD000
  | .skp _ => 0xE09E
  | .sknp _ => 0xE0A1
  | .ldVxDt _ => 0xF007
  | .ldVxK _ => 0xF00A
  | .ldDtVx _ => 0xF015
  | .ldStVx _ => 0xF018
  | .addIVx _ => 0xF01E
  | .ldFVx _ => 0xF029
  | .ldBVx _ => 0xF033
  | .storeRegs _ => 0xF055
  | .loadRegs _ => 0xF065

/-- What the decoder reads from the instruction whose bits are `w`, the first `nbits` of them given and the rest 0: the
word laid out in memory order, then decoded. -/
def decodeTableWord (nbits w : Nat) : Option Instr :=
  (decodeBytes (bytesOf (BitVec.ofNat 16 (w % 2 ^ nbits)))).toOption.map Prod.fst

end Sys2Proof
end

