-- ==== Sys2Proof/Config.lean ====
section
/-! DEFINITION. What the spec leaves to a parameter: the sizes of 00_scope.md R9, the four quirk parameters of R11,
and the free values: those the host or the random source supplies (60_exceptions.md R252, R254), and the order in which the
agents move (00_scope.md R17). -/

namespace Sys2Proof

/-- MEM_SIZE: addresses 0x000..0xFFF (R9, R60). -/
abbrev memSize : Nat := 4096

/-- PROGRAM_BASE, the load address and the reset value of PC (R9, R24, R62). -/
abbrev programBase : Nat := 0x200

/-- FB_WIDTH (R9). -/
abbrev fbWidth : Nat := 64

/-- FB_HEIGHT (R9). -/
abbrev fbHeight : Nat := 32

/-- STACK_DEPTH (R9). -/
abbrev stackDepth : Nat := 16

/-- SHIFT_SRC: the register 8XY6 and 8XYE shift (R11, D9). -/
inductive ShiftSrc where
  | vx
  | vy
  deriving DecidableEq, Repr

/-- LDST_I_INCREMENT: what FX55 and FX65 add to I (R11, D11). -/
inductive LdstIncrement where
  /-- NONE: I is unchanged. -/
  | unchanged
  /-- X_PLUS_1: I grows by X + 1. -/
  | xPlusOne
  /-- X: I grows by X. -/
  | x
  deriving DecidableEq, Repr

/-- JUMP_OFFSET_REG: the register BNNN adds (R11, D12). -/
inductive JumpOffsetReg where
  | v0
  | vx
  deriving DecidableEq, Repr

/-- The four quirk parameters of R11. The value this hardware has is `Machine.quirks`, in Machine/Operands.lean. -/
structure Quirks where
  shiftSrc      : ShiftSrc
  logicVfReset  : Bool
  ldstIncrement : LdstIncrement
  jumpOffsetReg : JumpOffsetReg
  deriving DecidableEq, Repr

/-- One atomic step of one agent of R17. -/
inductive Move where
  /-- The CPU steps (R37). -/
  | cpu
  /-- The DT agent ticks (R241). -/
  | tickDt
  /-- The ST agent ticks (R241). -/
  | tickSt
  /-- The host delivers a press of key `k` (R253). -/
  | press (k : Nibble)
  deriving DecidableEq, Repr

/-- FREE VALUE (log 2). The byte of the random draw number `n`: `Rand()` is a free draw of each CXNN, under no law
(R191, R254, D23). -/
opaque Config.freeRandom : Nat → Byte

/-- FREE VALUE (log 2). The host's answer to draw number `n`, a query for key `k`: "a fresh boolean draw from the host,
under no law" (R252, D29). -/
opaque Config.freeKey : Nat → Nibble → Bool

/-- FREE VALUE (log 1). The moves of round number `n`, any finitely many, in any order: "a model interleaves the steps of these
agents in any order" (R17, R242, R253). A round ends with one timer tick (`closingTick`). -/
opaque Config.freeMoves : Nat → List Move

end Sys2Proof
end

