-- ==== Sys2Proof/Machine/State.lean ====
section
/-! DEFINITION. The state of 10_state.md (R20 to R35, summed up in R46), and the state after reset
(70_reset_and_hazards.md R270). -/

namespace Sys2Proof.Machine

/-- `Status` (R33). -/
inductive Status where
  /-- The next step fetches and executes an instruction. -/
  | run
  /-- Suspended in FX0A until a key press is delivered (R44). -/
  | waitKey
  /-- The run is complete by run-off-end (R42). Terminal. -/
  | halted
  /-- A fatal fault has stopped the core (R232). Terminal. -/
  | fault
  deriving DecidableEq, Repr

/-- `FaultCause` (R34, R231). These are values of a register of the machine, set by `State.raise`; a faulting instruction
still answers a next state, the one whose Status is FAULT (log 5). -/
inductive FaultCause where
  /-- No fault; code 0. -/
  | none
  /-- The fetched word matches no row; code 1. -/
  | decodeError
  /-- 2NNN with SP = 16; code 2. -/
  | stackOverflow
  /-- 00EE with SP = 0; code 3. -/
  | stackUnderflow
  /-- FX33, FX55, FX65 or DXYN with an address above 0xFFF; code 4. -/
  | memBounds
  /-- EX9E or EXA1 with V[X] above 0x0F; code 5. -/
  | keyRange
  deriving DecidableEq, Repr

/-- Memory: the cells whose byte differs from the reset contents, addresses strictly rising (`Memory.wf`; log 4). -/
abbrev Memory := List Host.Cell

/-- `FB[y][x]`: 32 rows of 64 one-bit pixels (R31). -/
abbrev Framebuffer := Vector (Vector Bool fbWidth) fbHeight

/-- The whole state: the thirteen entries of 10_state.md section 8, and the model's own `draws`, `schedule` and
`rounds`. -/
structure State where
  /-- V0..VF (R20, R21). -/
  v          : Vector Byte 16
  /-- The index register I (R23). -/
  i          : Word
  /-- The program counter (R24). -/
  pc         : Word
  /-- Stack[0..15] (R25). -/
  stack      : Vector Word stackDepth
  /-- SP, 0..16, the next free slot (R26). -/
  sp         : Fin 17
  /-- The delay timer (R27). -/
  dt         : Byte
  /-- The sound timer (R28). -/
  st         : Byte
  /-- Mem[0..4095] (R30). -/
  mem        : Memory
  /-- The framebuffer (R31). -/
  fb         : Framebuffer
  /-- Status (R33). -/
  status     : Status
  /-- FaultCause (R34). -/
  faultCause : FaultCause
  /-- FaultInfo (R34). -/
  faultInfo  : Word
  /-- WaitReg (R35). -/
  waitReg    : Reg
  /-- The model's own: how many free values have been drawn (DESIGN CHOICE, log 2). -/
  draws      : Nat
  /-- The model's own: the agents' moves already settled, the first one first; when it is empty the next round of free moves
  follows (DESIGN CHOICE, log 1). -/
  schedule   : List Move
  /-- The model's own: how many rounds of free moves have begun (DESIGN CHOICE, log 1). -/
  rounds     : Nat
  deriving DecidableEq, Repr

/-- Reasons for the host's `fault` outcome. There are none: every way this machine stops (HALTED, FAULT, WAIT_KEY) is a
state the spec describes, so it is a NEXT state (R37, R38, R232; log 5). -/
inductive Fault where
  deriving DecidableEq, Repr

/-- Reasons for the host's `refused` outcome. -/
inductive Refusal where
  /-- Raised only by an arm of `exec` whose instruction has no meaning yet. Safe: nothing is claimed of it. No arm of this
  model raises it. -/
  | notModelled (mnemonic : String)
  deriving DecidableEq, Repr

/-- What a step or a meaning answers. -/
abbrev Result := Host.Outcome State Fault Refusal

/-- The machine right after construction, no program loaded (R270). The three last fields are the model's own (log 1, log 2). -/
def State.reset : State where
  v          := Vector.replicate 16 0
  i          := 0
  pc         := BitVec.ofNat 16 programBase
  stack      := Vector.replicate stackDepth 0
  sp         := 0
  dt         := 0
  st         := 0
  mem        := []
  fb         := Vector.replicate fbHeight (Vector.replicate fbWidth false)
  status     := .run
  faultCause := .none
  faultInfo  := 0
  waitReg    := 0
  draws      := 0
  schedule   := []
  rounds     := 0

end Sys2Proof.Machine
end

