-- ==== Sys2Proof/Machine/Memory.lean ====
section
/-! DEFINITION. Memory (20_memory.md R60 to R71): the reset contents, reading and writing one byte, and the byte sequences
built from them. -/

namespace Sys2Proof.Machine

/-- The 16 glyphs of 5 bytes, one after another from 0x000 (R71, D20). -/
def fontBytes : List Byte :=
  [0xF0, 0x90, 0x90, 0x90, 0xF0] ++ [0x20, 0x60, 0x20, 0x20, 0x70] ++
  [0xF0, 0x10, 0xF0, 0x80, 0xF0] ++ [0xF0, 0x10, 0xF0, 0x10, 0xF0] ++
  [0x90, 0x90, 0xF0, 0x10, 0x10] ++ [0xF0, 0x80, 0xF0, 0x10, 0xF0] ++
  [0xF0, 0x80, 0xF0, 0x90, 0xF0] ++ [0xF0, 0x10, 0x20, 0x40, 0x40] ++
  [0xF0, 0x90, 0xF0, 0x90, 0xF0] ++ [0xF0, 0x90, 0xF0, 0x10, 0xF0] ++
  [0xF0, 0x90, 0xF0, 0x90, 0x90] ++ [0xE0, 0x90, 0xE0, 0x90, 0xE0] ++
  [0xF0, 0x80, 0x80, 0x80, 0xF0] ++ [0xE0, 0x90, 0x90, 0x90, 0xE0] ++
  [0xF0, 0x80, 0xF0, 0x80, 0xF0] ++ [0xF0, 0x80, 0xF0, 0x80, 0x80]

/-- What an address the list does not name reads as: the reset contents, the font at 0x000..0x04F and 0 elsewhere
(R30, R62, R270; log 4). -/
def Memory.unlisted (a : Nat) : Byte := fontBytes.getD a 0

/-- The byte listed for address `a`, if any. -/
def Memory.lookup : Memory → Nat → Option Byte
  | [], _ => none
  | (k, b) :: m, a => if k = a then some b else lookup m a

/-- `MemRead(a, 1)` (R15, R61). Instructions call it only with `a ≤ 0xFFF` (`accessOk`; log 15). -/
def Memory.read (m : Memory) (a : Nat) : Byte := (m.lookup a).getD (Memory.unlisted a)

/-- Put a cell in its place by address. -/
def Memory.insertCell : Memory → Nat → Byte → Memory
  | [], a, b => [(a, b)]
  | (k, c) :: m, a, b =>
    if a < k then (a, b) :: (k, c) :: m
    else if a = k then (a, b) :: m
    else (k, c) :: insertCell m a b

/-- Take the cells of an address out of the list. -/
def Memory.eraseCell (m : Memory) (a : Nat) : Memory := m.filter fun c => c.1 ≠ a

/-- `MemWrite(a, 1, b)` (R15, R61). Writing the reset byte takes the cell out, so that equal memories are equal lists. There
is no cell above 0xFFF (R60); instructions never write one (`accessOk`; log 15). -/
def Memory.write (m : Memory) (a : Nat) (b : Byte) : Memory :=
  if a < memSize then
    if b = Memory.unlisted a then m.eraseCell a else m.insertCell a b
  else m

/-- Write consecutive bytes from address `a` up, one byte at a time (R61). -/
def Memory.writeBytes : Memory → Nat → List Byte → Memory
  | m, _, [] => m
  | m, a, b :: bs => writeBytes (m.write a b) (a + 1) bs

/-- The `n` bytes from address `a` up (R61). -/
def Memory.readBytes (m : Memory) (a : Nat) : Nat → List Byte
  | 0 => []
  | n + 1 => m.read a :: readBytes m (a + 1) n

/-- The canonical form: addresses strictly rise, each is in 0x000..0xFFF, and no cell holds what an unlisted address reads
as. -/
abbrev Memory.wf (m : Memory) : Prop :=
  m.Pairwise (fun c d => c.1 < d.1) ∧ ∀ c ∈ m, c.1 < memSize ∧ c.2 ≠ Memory.unlisted c.1

/-- Every address of an access of `count` bytes from `a` up is in memory: `a + count - 1 ≤ 0xFFF`, exact, with no wrap. An
access of no bytes is always in memory (R66, R173, R194). -/
def accessOk (a count : Nat) : Bool := count = 0 || a + count ≤ memSize

/-- `Fetch(pc) = {Mem[pc], Mem[pc + 1]}`: the first byte is the high byte (R64, D1). -/
def Memory.fetchWord (m : Memory) (pc : Nat) : Word := m.read pc ++ m.read (pc + 1)

end Sys2Proof.Machine
end

