-- ==== Sys2Proof/Machine/Ops.lean ====
section
/-! DEFINITION. The named operations over registers, PC, the call stack and the status, and taking a fault
(60_exceptions.md R232). The core has no return from a fault (R236), so no such operation stands beside it. -/

namespace Sys2Proof.Machine

/-- `V[x]` (R14, R20). -/
def State.getV (s : State) (x : Reg) : Byte := s.v[x]

/-- `V[x] <- b` (R14, R20). No register is hardwired. -/
def State.setV (s : State) (x : Reg) (b : Byte) : State := { s with v := s.v.set x b }

/-- `V[x] <- r`, then `V[0xF] <- f`, so that VF holds the flag when `x` is 15 (R22, R140, D8). -/
def State.setVFlag (s : State) (x : Reg) (r f : Byte) : State := (s.setV x r).setV vF f

/-- `I <- w` (R23). -/
def State.setI (s : State) (w : Word) : State := { s with i := w }

/-- `PC <- w`: the control class `goto` (R41). -/
def State.setPc (s : State) (w : Word) : State := { s with pc := w }

/-- The control class `next`: `PC <- PC + 2` (R41). -/
def State.advance (s : State) : State := s.setPc (s.pc + 2)

/-- The control class `skip`, `PC <- PC + 4`, when the condition holds, else `next`, `PC <- PC + 2` (R41). The skipped word
is neither fetched nor decoded (R120). -/
def State.skipIf (s : State) (p : Bool) : State := s.setPc (if p then s.pc + 4 else s.pc + 2)

/-- `DT <- b`, one access to the cell (R216, R217). -/
def State.setDt (s : State) (b : Byte) : State := { s with dt := b }

/-- `ST <- b`, one access to the cell (R217, R218). -/
def State.setSt (s : State) (b : Byte) : State := { s with st := b }

/-- Memory replaced. -/
def State.setMem (s : State) (m : Memory) : State := { s with mem := m }

/-- The framebuffer replaced. -/
def State.setFb (s : State) (f : Framebuffer) : State := { s with fb := f }

/-- `Status <- t` (R33). -/
def State.setStatus (s : State) (t : Status) : State := { s with status := t }

/-- Status and WaitReg of a core that FX0A suspends (R44, R214). -/
def State.suspend (s : State) (x : Reg) : State := { s with status := .waitKey, waitReg := x }

/-- One more free value drawn (log 2). -/
def State.countDraw (s : State) : State := { s with draws := s.draws + 1 }

/-- The moves still to come (log 1). -/
def State.setSchedule (s : State) (ms : List Move) : State := { s with schedule := ms }

/-- The moves still to come and the rounds begun: the whole order of moves (log 1). -/
def State.setOrder (s : State) (ms : List Move) (r : Nat) : State := { s with schedule := ms, rounds := r }

/-- `raise Fault(cause, w)`: Status, FaultCause and FaultInfo are written and nothing else; PC keeps the faulting
instruction's address (R232, R235). -/
def State.raise (s : State) (c : FaultCause) (w : Word) : State :=
  { s with status := .fault, faultCause := c, faultInfo := w }

/-- The code of a fault cause (R231, D25). -/
def FaultCause.code : FaultCause → BitVec 3
  | .none => 0
  | .decodeError => 1
  | .stackOverflow => 2
  | .stackUnderflow => 3
  | .memBounds => 4
  | .keyRange => 5

/-- Push a return address: `Stack[SP] <- w; SP <- SP + 1`, or nothing when SP = 16 (R26, R123). -/
def State.push? (s : State) (w : Word) : Option State :=
  if h : s.sp.val < stackDepth then
    some { s with stack := s.stack.set s.sp.val w, sp := ⟨s.sp.val + 1, by simp only [stackDepth] at h; omega⟩ }
  else none

/-- Pop a return address: `SP <- SP - 1` and `Stack[SP]`, or nothing when SP = 0. The slot keeps its value (R25, R26,
R124). -/
def State.pop? (s : State) : Option (Word × State) :=
  if h : 0 < s.sp.val then
    some (s.stack[s.sp.val - 1]'(by have := s.sp.isLt; simp only [stackDepth]; omega),
      { s with sp := ⟨s.sp.val - 1, by have := s.sp.isLt; omega⟩ })
  else none

/-- A fetch at PC would read beyond memory: `PC + 1 > 0xFFF` (R42, D2). -/
def State.runsOffEnd (s : State) : Bool := 0xFFF < s.pc.toNat + 1

/-- The word at PC (R64). -/
def State.fetch (s : State) : Word := s.mem.fetchWord s.pc.toNat

end Sys2Proof.Machine
end

