-- ==== Sys2Proof/Machine/Operands.lean ====
section
/-! DEFINITION. The operands the instructions compute: the quirk parameters (00_scope.md R11), the shift source, the jump
target, the addresses relative to I, the draw coordinates, the decimal digits and the glyph address. -/

namespace Sys2Proof.Machine

/-- The values this spec decides for the four parameters of R11 (D9 to D12; log 3). -/
def quirks : Quirks where
  shiftSrc      := .vx
  logicVfReset  := false
  ldstIncrement := .unchanged
  jumpOffsetReg := .v0

/-- `src` of 8XY6 and 8XYE: V[X], or V[Y] when SHIFT_SRC = VY (R150, R152). -/
def shiftSource (q : Quirks) (s : State) (x y : Reg) : Byte :=
  match q.shiftSrc with
  | .vx => s.getV x
  | .vy => s.getV y

/-- Result and flag of 8XY1, 8XY2 and 8XY3: VF is written, with 0, only when LOGIC_VF_RESET (R145, R146, R147). -/
def State.setLogic (q : Quirks) (s : State) (x : Reg) (r : Byte) : State :=
  if q.logicVfReset then s.setVFlag x r 0 else s.setV x r

/-- I after FX55 and FX65 (R174, R175). -/
def indexAfterLdst (q : Quirks) (i : Word) (x : Reg) : Word :=
  match q.ldstIncrement with
  | .unchanged => i
  | .xPlusOne => i + BitVec.ofNat 16 (x.val + 1)
  | .x => i + BitVec.ofNat 16 x.val

/-- The register BNNN adds: V0, or V[X] with X = w[11:8] when JUMP_OFFSET_REG = VX (R122). -/
def jumpOffset (q : Quirks) (s : State) (addr : Word) : Byte :=
  match q.jumpOffsetReg with
  | .v0 => s.getV 0
  | .vx => s.getV (regOf (addr.extractLsb' 8 4))

/-- The target of BNNN, a 16-bit sum (R41, R122). -/
def jumpTarget (q : Quirks) (s : State) (addr : Word) : Word := addr + (jumpOffset q s addr).setWidth 16

/-- Registers V0..V[X] in order, what FX55 stores (R94, R174). -/
def lowRegs (s : State) (x : Reg) : List Byte := s.v.toList.take (x.val + 1)

/-- Whether `V[k]` is one of the registers FX65 loads (R94, R175). -/
def inLowRegs (x k : Reg) : Bool := k.val ≤ x.val

/-- `for k in 0 .. X: V[k] <- MemRead(I + k, 1)` (R175). -/
def State.loadLow (s : State) (x : Reg) : State :=
  { s with v := Vector.ofFn fun k => if inLowRegs x k then s.mem.read (s.i.toNat + k.val) else s.getV k }

/-- Hundreds, tens and ones of a byte, in that order (R176). -/
def decimalDigits (b : Byte) : List Byte :=
  [BitVec.ofNat 8 (b.toNat / 100), BitVec.ofNat 8 (b.toNat / 10 % 10), BitVec.ofNat 8 (b.toNat % 10)]

/-- The address of the glyph of a byte's low nibble: `5 * V[X][3:0]` (R177, D14). -/
def glyphAddr (b : Byte) : Word := BitVec.ofNat 16 (5 * (b.toNat % 16))

/-- `x = V[X] mod 64` (R194, R251). -/
def drawColumn (b : Byte) : Nat := b.toNat % fbWidth

/-- `y = V[Y] mod 32` (R194, R251). -/
def drawRow (b : Byte) : Nat := b.toNat % fbHeight

/-- V[X] names a key: `V[X] ≤ 0x0F` (R211). -/
def isKey (b : Byte) : Bool := b.toNat ≤ 0x0F

/-- `V[X][3:0]`, the key a query names (R212). -/
def keyOf (b : Byte) : Nibble := b.extractLsb' 0 4

end Sys2Proof.Machine
end

