-- ==== Sys2Proof/Machine/ArithLogic.lean ====
section
/-! DEFINITION. Loads, adds, subtracts, bitwise operations and shifts (42_arith_logic.md R140 to R153). Each takes the
control class `next`. -/

namespace Sys2Proof.Machine

/-- 6XNN: `V[X] <- NN` (R141). -/
def execLdByte (x : Reg) (nn : Byte) (s : State) : Result := .next (s.setV x nn).advance

/-- 7XNN: `V[X] <- (V[X] + NN) mod 256`, no flag (R142). -/
def execAddByte (x : Reg) (nn : Byte) (s : State) : Result := .next (s.setV x (s.getV x + nn)).advance

/-- 8XY0: `V[X] <- V[Y]` (R144). -/
def execLdReg (x y : Reg) (s : State) : Result := .next (s.setV x (s.getV y)).advance

/-- 8XY1: `V[X] <- V[X] | V[Y]` (R145). -/
def execOrReg (x y : Reg) (s : State) : Result := .next (s.setLogic quirks x (s.getV x ||| s.getV y)).advance

/-- 8XY2: `V[X] <- V[X] & V[Y]` (R146). -/
def execAndReg (x y : Reg) (s : State) : Result := .next (s.setLogic quirks x (s.getV x &&& s.getV y)).advance

/-- 8XY3: `V[X] <- V[X] ^ V[Y]` (R147). -/
def execXorReg (x y : Reg) (s : State) : Result := .next (s.setLogic quirks x (s.getV x ^^^ s.getV y)).advance

/-- 8XY4: `V[X] <- (V[X] + V[Y]) mod 256`, then VF = carry (R148). -/
def execAddReg (x y : Reg) (s : State) : Result :=
  .next (s.setVFlag x (s.getV x + s.getV y) (carryFlag (s.getV x) (s.getV y))).advance

/-- 8XY5: `V[X] <- (V[X] - V[Y]) mod 256`, then VF = no borrow (R149). -/
def execSubReg (x y : Reg) (s : State) : Result :=
  .next (s.setVFlag x (s.getV x - s.getV y) (noBorrowFlag (s.getV x) (s.getV y))).advance

/-- 8XY7: `V[X] <- (V[Y] - V[X]) mod 256`, then VF = no borrow (R151). -/
def execSubnReg (x y : Reg) (s : State) : Result :=
  .next (s.setVFlag x (s.getV y - s.getV x) (noBorrowFlag (s.getV y) (s.getV x))).advance

/-- 8XY6 under given quirks: `V[X] <- src >> 1`, then VF = bit 0 of `src` (R150). -/
def State.shiftRight (q : Quirks) (x y : Reg) (s : State) : State :=
  s.setVFlag x (shiftSource q s x y >>> 1) (shrFlag (shiftSource q s x y))

/-- 8XYE under given quirks: `V[X] <- (src << 1) mod 256`, then VF = bit 7 of `src` (R152). -/
def State.shiftLeft (q : Quirks) (x y : Reg) (s : State) : State :=
  s.setVFlag x (shiftSource q s x y <<< 1) (shlFlag (shiftSource q s x y))

/-- 8XY6: shift V[X] right by one at the default (R150). -/
def execShr (x y : Reg) (s : State) : Result := .next (s.shiftRight quirks x y).advance

/-- 8XYE: shift V[X] left by one at the default (R152). -/
def execShl (x y : Reg) (s : State) : Result := .next (s.shiftLeft quirks x y).advance

end Sys2Proof.Machine
end

