-- ==== Sys2Proof/Machine/ControlFlow.lean ====
section
/-! DEFINITION. Jumps, call, return and the register skips (41_control_flow.md R120 to R129). -/

namespace Sys2Proof.Machine

/-- 1NNN: `PC <- zext_16(NNN)` (R121). -/
def execJp (addr : Word) (s : State) : Result := .next (s.setPc addr)

/-- BNNN: `PC <- zext_16(NNN) + V[0]` at the default (R122). -/
def execJpV0 (addr : Word) (s : State) : Result := .next (s.setPc (jumpTarget quirks s addr))

/-- 2NNN: push the CALL's own address and jump, or STACK_OVERFLOW when SP = 16 (R123). -/
def execCall (addr : Word) (s : State) : Result :=
  match s.push? s.pc with
  | some t => .next (t.setPc addr)
  | none => .next (s.raise .stackOverflow (encode (.call addr)))

/-- 00EE: pop the saved address and resume 2 past it, or STACK_UNDERFLOW when SP = 0 (R124). -/
def execRet (s : State) : Result :=
  match s.pop? with
  | some (saved, t) => .next (t.setPc (saved + 2))
  | none => .next (s.raise .stackUnderflow (encode .ret))

/-- 3XNN: skip if `V[X] = NN` (R125). -/
def execSeByte (x : Reg) (nn : Byte) (s : State) : Result := .next (s.skipIf (s.getV x = nn))

/-- 4XNN: skip if `V[X] ≠ NN` (R126). -/
def execSneByte (x : Reg) (nn : Byte) (s : State) : Result := .next (s.skipIf (s.getV x ≠ nn))

/-- 5XY0: skip if `V[X] = V[Y]` (R127). -/
def execSeReg (x y : Reg) (s : State) : Result := .next (s.skipIf (s.getV x = s.getV y))

/-- 9XY0: skip if `V[X] ≠ V[Y]` (R128). -/
def execSneReg (x y : Reg) (s : State) : Result := .next (s.skipIf (s.getV x ≠ s.getV y))

end Sys2Proof.Machine
end

