-- ==== Sys2Proof/Machine/Ports.lean ====
section
/-! DEFINITION. The ports that answer with a free value (60_exceptions.md R252, R254). Each call takes one draw. -/

namespace Sys2Proof.Machine

/-- `Rand() -> byte`: a free byte, and the state with the draw counted (R254, D23; log 2). -/
def State.rand (s : State) : Byte × State := (Config.freeRandom s.draws, s.countDraw)

/-- `Keyboard.is_pressed(k) -> boolean`: a free answer, and the state with the draw counted (R252, D29; log 2). -/
def State.isPressed (s : State) (k : Nibble) : Bool × State := (Config.freeKey s.draws k, s.countDraw)

end Sys2Proof.Machine
end

