-- ==== Sys2Proof/Machine/KeyboardTimers.lean ====
section
/-! DEFINITION. The keyboard and timer instructions (45_keyboard_timers.md R210 to R218). -/

namespace Sys2Proof.Machine

/-- EX9E and EXA1 after the range check: query the key and skip if the answer is `wanted` (R212, R213). -/
def State.skipOnKey (s : State) (x : Reg) (wanted : Bool) : State :=
  let q := s.isPressed (keyOf (s.getV x))
  q.2.skipIf (q.1 = wanted)

/-- EX9E: skip if the key in V[X] is pressed; KEY_RANGE, without a query, if V[X] > 0x0F (R211, R212). -/
def execSkp (x : Reg) (s : State) : Result :=
  if isKey (s.getV x) then .next (s.skipOnKey x true) else .next (s.raise .keyRange (encode (.skp x)))

/-- EXA1: skip if the key in V[X] is not pressed; KEY_RANGE, without a query, if V[X] > 0x0F (R211, R213). -/
def execSknp (x : Reg) (s : State) : Result :=
  if isKey (s.getV x) then .next (s.skipOnKey x false) else .next (s.raise .keyRange (encode (.sknp x)))

/-- FX0A: suspend in WAIT_KEY with WaitReg = X; PC stays at the FX0A. `State.keyEvent` ends the wait (R44, R214). -/
def execLdVxK (x : Reg) (s : State) : Result := .next (s.suspend x)

/-- FX07: `V[X] <- DT` (R215). -/
def execLdVxDt (x : Reg) (s : State) : Result := .next (s.setV x s.dt).advance

/-- FX15: `DT <- V[X]` (R216). -/
def execLdDtVx (x : Reg) (s : State) : Result := .next (s.setDt (s.getV x)).advance

/-- FX18: `ST <- V[X]` (R218). -/
def execLdStVx (x : Reg) (s : State) : Result := .next (s.setSt (s.getV x)).advance

end Sys2Proof.Machine
end

