-- ==== Sys2Proof/Machine/MemoryOps.lean ====
section
/-! DEFINITION. The index register and the memory instructions (43_memory_ops.md R170 to R177). Each takes the control class
`next`; an access beyond 0xFFF raises MEM_BOUNDS before anything is written (R173). -/

namespace Sys2Proof.Machine

/-- ANNN: `I <- zext_16(NNN)` (R171). -/
def execLdI (addr : Word) (s : State) : Result := .next (s.setI addr).advance

/-- FX1E: `I <- (I + V[X]) mod 2^16`, VF not written (R172, D13). -/
def execAddIVx (x : Reg) (s : State) : Result := .next (s.setI (s.i + (s.getV x).setWidth 16)).advance

/-- FX29: `I <- 5 * V[X][3:0]` (R177, D14). -/
def execLdFVx (x : Reg) (s : State) : Result := .next (s.setI (glyphAddr (s.getV x))).advance

/-- Take `t` as the next state if the access of `count` bytes at I is in memory; else raise MEM_BOUNDS (R66, R173). -/
def State.ifInMemory (s : State) (count : Nat) (w : Word) (t : State) : Result :=
  if accessOk s.i.toNat count then .next t else .next (s.raise .memBounds w)

/-- FX33 without its check: the three digits at I, I+1 and I+2 (R176). -/
def State.storeDigits (s : State) (x : Reg) : State :=
  s.setMem (s.mem.writeBytes s.i.toNat (decimalDigits (s.getV x)))

/-- FX55 without its check, under given quirks (R174). -/
def State.storeLow (q : Quirks) (s : State) (x : Reg) : State :=
  (s.setMem (s.mem.writeBytes s.i.toNat (lowRegs s x))).setI (indexAfterLdst q s.i x)

/-- FX65 without its check, under given quirks (R175). -/
def State.loadLowThenIndex (q : Quirks) (s : State) (x : Reg) : State :=
  (s.loadLow x).setI (indexAfterLdst q s.i x)

/-- FX33: store the decimal digits of V[X] (R176). -/
def execLdBVx (x : Reg) (s : State) : Result :=
  s.ifInMemory 3 (encode (.ldBVx x)) (s.storeDigits x).advance

/-- FX55: store V0..V[X] from I up (R174). -/
def execStoreRegs (x : Reg) (s : State) : Result :=
  s.ifInMemory (x.val + 1) (encode (.storeRegs x)) (s.storeLow quirks x).advance

/-- FX65: load V0..V[X] from I up (R175). -/
def execLoadRegs (x : Reg) (s : State) : Result :=
  s.ifInMemory (x.val + 1) (encode (.loadRegs x)) (s.loadLowThenIndex quirks x).advance

end Sys2Proof.Machine
end

