-- ==== Sys2Proof/Machine/Display.lean ====
section
/-! DEFINITION. The raster controller (44_random_display.md R192, R193; 60_exceptions.md R250, R251). Presentation to a
screen is outside the model (00_scope.md R7, U18; log 9). -/

namespace Sys2Proof.Machine

/-- `FB[y mod 32][x mod 64]`: wraparound addressing (R31, R193). -/
def Framebuffer.pixel (f : Framebuffer) (x y : Nat) : Bool :=
  (f[y % fbHeight]'(Nat.mod_lt _ (by decide)))[x % fbWidth]'(Nat.mod_lt _ (by decide))

/-- `FB[py][px] <- FB[py][px] ^ 1` at the wrapped coordinates (R193). -/
def Framebuffer.flip (f : Framebuffer) (x y : Nat) : Framebuffer :=
  f.set (y % fbHeight)
    ((f[y % fbHeight]'(Nat.mod_lt _ (by decide))).set (x % fbWidth) (!f.pixel x y) (Nat.mod_lt _ (by decide)))
    (Nat.mod_lt _ (by decide))

/-- A draw in progress: the framebuffer, and whether a set pixel was met so far. -/
abbrev Raster := Framebuffer × Bool

/-- One set sprite bit: note a collision when the pixel is set, then flip it (R193). -/
def plot (x y : Nat) (acc : Raster) : Raster := (acc.1.flip x y, acc.2 || acc.1.pixel x y)

/-- One sprite row, columns 0 to 7; bit 7 of the byte is the leftmost pixel (R193). -/
def plotRow (x y : Nat) (row : Byte) (acc : Raster) : Raster :=
  (List.range 8).foldl (fun acc c => if row.getLsbD (7 - c) then plot (x + c) y acc else acc) acc

/-- The sprite's rows from top to bottom (R193). -/
def plotRows (x : Nat) : Nat → List Byte → Raster → Raster
  | _, [], acc => acc
  | y, row :: rows, acc => plotRows x (y + 1) rows (plotRow x y row acc)

/-- `Display.draw(x, y, rows) -> collision` (R193, R251). -/
def Framebuffer.draw (f : Framebuffer) (x y : Nat) (rows : List Byte) : Raster := plotRows x y rows (f, false)

/-- `Display.clear()`: every pixel 0 (R192, R250). -/
def Framebuffer.blank : Framebuffer := Vector.replicate fbHeight (Vector.replicate fbWidth false)

end Sys2Proof.Machine
end

