-- ==== Sys2Proof/Machine/RandomDisplay.lean ====
section
/-! DEFINITION. The random byte and the display (44_random_display.md R190 to R195). Each takes the control class `next`. -/

namespace Sys2Proof.Machine

/-- `V[X] <- r & NN` for the random byte `r` (R191). -/
def State.setMasked (s : State) (x : Reg) (r nn : Byte) : State := s.setV x (r &&& nn)

/-- CXNN: a free random byte masked by NN (R191). -/
def execRnd (x : Reg) (nn : Byte) (s : State) : Result :=
  .next (s.rand.2.setMasked x s.rand.1 nn).advance

/-- 00E0: every pixel 0 (R192). -/
def execCls (s : State) : Result := .next (s.setFb Framebuffer.blank).advance

/-- DXYN without its check: the sprite at I XORed in at `(V[X] mod 64, V[Y] mod 32)`, then VF = collision (R194). -/
def State.drawSprite (s : State) (x y : Reg) (n : Nat) : State :=
  let r := s.fb.draw (drawColumn (s.getV x)) (drawRow (s.getV y)) (s.mem.readBytes s.i.toNat n)
  (s.setFb r.1).setV vF (collisionFlag r.2)

/-- DXYN: draw N rows; with N = 0 nothing is read and VF is 0 (R194, D17). -/
def execDrw (x y : Reg) (n : Nat) (s : State) : Result :=
  s.ifInMemory n (encode (.drw x y n)) (s.drawSprite x y n).advance

end Sys2Proof.Machine
end

