-- ==== Sys2Proof/Machine/Cycle.lean ====
section
/-! DEFINITION. One CPU step, the host's `cycle()` (10_state.md R36 to R42; 60_exceptions.md R234). -/

namespace Sys2Proof.Machine

/-- A CPU step with Status = RUN: the halt check, then fetch and decode, then the instruction (R37, R234). -/
def cycleRun (s : State) : Result :=
  if s.runsOffEnd then .next (s.setStatus .halted)
  else
    match decode s.fetch with
    | .ok i => exec i s
    | .error _ => .next (s.raise .decodeError s.fetch)

/-- A CPU step: with Status = HALTED or FAULT it changes nothing, with WAIT_KEY it makes no progress (R38, D32). -/
def cycle (s : State) : Result :=
  match s.status with
  | .run => cycleRun s
  | .waitKey => .next s
  | .halted => .next s
  | .fault => .next s

end Sys2Proof.Machine
end

