-- ==== Sys2Proof/Machine/Agents.lean ====
section
/-! DEFINITION. The moves of the agents beside the CPU (00_scope.md R17): timer ticks (60_exceptions.md R241) and key presses
(R253). -/

namespace Sys2Proof.Machine

/-- `if T > 0: T <- T - 1` (R241). -/
def tick (t : Byte) : Byte := if t = 0 then 0 else t - 1

/-- A tick of the DT agent, in every Status (R241, log 14). -/
def State.tickDt (s : State) : State := s.setDt (tick s.dt)

/-- A tick of the ST agent, in every Status (R241, log 14). -/
def State.tickSt (s : State) : State := s.setSt (tick s.st)

/-- A press of key `k`. While Status = WAIT_KEY it is delivered: `V[WaitReg] <- k; PC <- PC + 2; Status <- RUN`. At any other
time the core does not see it: a key already held does not end a later wait (R44, R214, R253, D16; log 7). -/
def State.keyEvent (s : State) (k : Nibble) : State :=
  match s.status with
  | .waitKey => ((s.setV s.waitReg (k.setWidth 8)).advance).setStatus .run
  | .run => s
  | .halted => s
  | .fault => s

/-- One move of one agent, atomic (R17, R36). -/
def perform (m : Move) (s : State) : Result :=
  match m with
  | .cpu => cycle s
  | .tickDt => .next s.tickDt
  | .tickSt => .next s.tickSt
  | .press k => .next (s.keyEvent k)

/-- The tick that ends a round: the DT agent's and the ST agent's in turn, so that each agent ticks again and again (the
fairness of R243; log 10). -/
def closingTick (round : Nat) : Move := if round % 2 = 0 then .tickDt else .tickSt

/-- The moves of a round, its first move and those after it: the free ones, then its closing tick (R17, R242, R243; log 1). -/
def roundMoves (round : Nat) : Move × List Move :=
  match Config.freeMoves round with
  | [] => (closingTick round, [])
  | m :: ms => (m, ms ++ [closingTick round])

/-- The next move, and the state with it taken off: the first one settled, or the first of a new round (R17, R242; log 1). -/
def nextMove (s : State) : Move × State :=
  match s.schedule with
  | m :: ms => (m, s.setSchedule ms)
  | [] => ((roundMoves s.rounds).1, s.setOrder (roundMoves s.rounds).2 (s.rounds + 1))

/-- What must stand in the schedule for the CPU to move next. -/
def cpuFirst : List Move → List Move
  | .cpu :: ms => .cpu :: ms
  | ms => .cpu :: ms

/-- The core made ready to fetch: Status RUN with no fault recorded, and PC where two bytes can be fetched. A core that
already is so stays as it is (log 13). -/
def State.readyToFetch (s : State) : State :=
  let s := match s.status with
    | .run => s
    | .waitKey => s.setStatus .run
    | .halted => s.setStatus .run
    | .fault => { s with status := .run, faultCause := .none, faultInfo := 0 }
  if s.runsOffEnd then s.setPc (BitVec.ofNat 16 programBase) else s

/-- The word `w`, its bits from `nbits` up 0, stored where the next step fetches, and the CPU first in the schedule. -/
def State.placeWord (s : State) (nbits w : Nat) : State :=
  let t := s.readyToFetch
  { t with
    mem := t.mem.writeBytes t.pc.toNat (bytesOf (BitVec.ofNat 16 (w % 2 ^ nbits)))
    schedule := cpuFirst t.schedule }

end Sys2Proof.Machine
end

