-- ==== Sys2Proof/Machine/HostPort.lean ====
section
/-! DEFINITION. The host port (60_exceptions.md R255, R256): load, status read, and the run loop. `construct` is
`State.reset`; `cycle()` is `cycle`. None of these is a move of the machine's step (log 8). -/

namespace Sys2Proof.Machine

/-- `count = min(len(bytes), 4096 - address)`, the bytes a load copies (R69, D21). -/
def loadCount (address : Nat) (bytes : List Byte) : Nat := min bytes.length (memSize - address)

/-- `load(address, bytes) -> count`: the first `count` bytes are copied to `address` and up; the rest is dropped (R69). -/
def State.load (s : State) (address : Nat) (bytes : List Byte) : State × Nat :=
  (s.setMem (s.mem.writeBytes address (bytes.take (loadCount address bytes))), loadCount address bytes)

/-- A constructed machine with its program loaded at 0x200 (R70, R273). -/
def boot (program : List Byte) : State := (State.reset.load programBase program).1

/-- What the host reads on the status port (R255). -/
structure StatusReport where
  status     : Status
  faultCause : FaultCause
  faultInfo  : Word
  deriving DecidableEq, Repr

/-- The status read (R255). Every register is readable too, through State's fields and `State.getV`; none is written. -/
def State.readStatus (s : State) : StatusReport := ⟨s.status, s.faultCause, s.faultInfo⟩

/-- The four outcomes R40 gives a CPU step. -/
inductive StepOutcome where
  /-- The instruction retired, with Status still RUN. -/
  | next (s : State)
  /-- FX0A entered WAIT_KEY. -/
  | wait (s : State)
  /-- The run-off-end check fired. -/
  | halted (s : State)
  /-- A fault was raised. -/
  | fault (cause : FaultCause) (info : Word)
  deriving DecidableEq, Repr

/-- The outcome of R40 that a state after a CPU step shows. -/
def State.outcome (s : State) : StepOutcome :=
  match s.status with
  | .run => .next s
  | .waitKey => .wait s
  | .halted => .halted s
  | .fault => .fault s.faultCause s.faultInfo

/-- How a `run()` ends (R256). -/
inductive RunResult where
  /-- The core is HALTED: `run()` returns normally (R237, R256). -/
  | completed (s : State)
  /-- The core is in FAULT: `run()` returns an error result (R232, R256). -/
  | failed (s : State)
  /-- The fuel ran out first. -/
  | unfinished (s : State)
  deriving DecidableEq, Repr

end Sys2Proof.Machine
end

