-- ==== Sys2Proof/Machine/Step.lean ====
section
/-! DEFINITION. The machine's one step: the next move of the free order in which the agents move (00_scope.md R17, 60_exceptions.md
R242, R243; log 1). -/

namespace Sys2Proof.Machine

/-- One atomic step of one agent (R17, R36, R242). -/
def step (s : State) : Host.Outcome State Fault Refusal := perform (nextMove s).1 (nextMove s).2

/-- The state in which the very next step fetches and runs the instruction whose bits are `w` (log 8, log 13). -/
def State.withFetchWord (s : State) (nbits w : Nat) : State := s.placeWord nbits w

/-- `run(frequency)` on fuel, pacing left out: step until HALTED or FAULT, the other agents' moves among the CPU's (R256,
R242; log 10). -/
def runLoop : Nat → State → RunResult
  | 0, s => .unfinished s
  | k + 1, s =>
    match s.status with
    | .halted => .completed s
    | .fault => .failed s
    | .run | .waitKey =>
      match step s with
      | .next t => runLoop k t
      | .fault r => nomatch r
      | .refused _ => .unfinished s

end Sys2Proof.Machine
end

