-- ==== Sys2Proof/Safety.lean ====
section
/-! DEFINITION. The terms claims use: what an instruction may change (its frame), which fault it raises, the states along
a run, and the invariant of 10_state.md R45. -/

namespace Sys2Proof.Machine

/-- What may differ between two states. PC is not listed: a statement says separately where it goes. -/
structure May where
  regs    : Reg → Bool := fun _ => false
  index   : Bool := false
  slots   : Fin 16 → Bool := fun _ => false
  sp      : Bool := false
  dt      : Bool := false
  st      : Bool := false
  memory  : Nat → Bool := fun _ => false
  pixels  : Bool := false
  status  : Bool := false
  record  : Bool := false
  waitReg : Bool := false
  draws   : Bool := false
  order   : Bool := false

/-- `t` is as `s` but for PC and what `may` lists. `record` covers FaultCause and FaultInfo; `order` covers the
model's own `schedule` and `rounds`. -/
structure Frame (may : May) (s t : State) : Prop where
  regs       : ∀ r, may.regs r = false → t.getV r = s.getV r
  index      : may.index = false → t.i = s.i
  slots      : ∀ k : Fin 16, may.slots k = false → t.stack[k] = s.stack[k]
  sp         : may.sp = false → t.sp = s.sp
  dt         : may.dt = false → t.dt = s.dt
  st         : may.st = false → t.st = s.st
  memory     : ∀ a, may.memory a = false → t.mem.read a = s.mem.read a
  pixels     : may.pixels = false → ∀ x y, t.fb.pixel x y = s.fb.pixel x y
  status     : may.status = false → t.status = s.status
  faultCause : may.record = false → t.faultCause = s.faultCause
  faultInfo  : may.record = false → t.faultInfo = s.faultInfo
  waitReg    : may.waitReg = false → t.waitReg = s.waitReg
  draws      : may.draws = false → t.draws = s.draws
  schedule   : may.order = false → t.schedule = s.schedule
  rounds     : may.order = false → t.rounds = s.rounds

/-- The addresses `base`..`base + count - 1`. -/
def span (base count : Nat) (a : Nat) : Bool := base ≤ a && a < base + count

/-- What each instruction that retires may change, from the pseudocode of its rule (R22, R23, R25 to R28, R31, R72). -/
def mayChange (s : State) : Instr → May
  | .cls => { pixels := true }
  | .ret => { sp := true }
  | .jp _ => {}
  | .call _ => { slots := fun k => k.val = s.sp.val, sp := true }
  | .seByte _ _ => {}
  | .sneByte _ _ => {}
  | .seReg _ _ => {}
  | .ldByte x _ => { regs := fun r => r = x }
  | .addByte x _ => { regs := fun r => r = x }
  | .ldReg x _ => { regs := fun r => r = x }
  | .orReg x _ => { regs := fun r => r = x }
  | .andReg x _ => { regs := fun r => r = x }
  | .xorReg x _ => { regs := fun r => r = x }
  | .addReg x _ => { regs := fun r => r = x || r = vF }
  | .subReg x _ => { regs := fun r => r = x || r = vF }
  | .shr x _ => { regs := fun r => r = x || r = vF }
  | .subnReg x _ => { regs := fun r => r = x || r = vF }
  | .shl x _ => { regs := fun r => r = x || r = vF }
  | .sneReg _ _ => {}
  | .ldI _ => { index := true }
  | .jpV0 _ => {}
  | .rnd x _ => { regs := fun r => r = x, draws := true }
  | .drw _ _ _ => { regs := fun r => r = vF, pixels := true }
  | .skp _ => { draws := true }
  | .sknp _ => { draws := true }
  | .ldVxDt x => { regs := fun r => r = x }
  | .ldVxK _ => { status := true, waitReg := true }
  | .ldDtVx _ => { dt := true }
  | .ldStVx _ => { st := true }
  | .addIVx _ => { index := true }
  | .ldFVx _ => { index := true }
  | .ldBVx _ => { memory := span s.i.toNat 3 }
  | .storeRegs x => { memory := span s.i.toNat (x.val + 1) }
  | .loadRegs x => { regs := fun r => r.val ≤ x.val }

/-- The fault the table of R231 gives an instruction in a state, if any. -/
def faultOf (s : State) : Instr → Option FaultCause
  | .call _ => if s.sp.val = 16 then some .stackOverflow else none
  | .ret => if s.sp.val = 0 then some .stackUnderflow else none
  | .ldBVx _ => if 0xFFF < s.i.toNat + 2 then some .memBounds else none
  | .storeRegs x => if 0xFFF < s.i.toNat + x.val then some .memBounds else none
  | .loadRegs x => if 0xFFF < s.i.toNat + x.val then some .memBounds else none
  | .drw _ _ n => if 1 ≤ n ∧ 0xFFF < s.i.toNat + (n - 1) then some .memBounds else none
  | .skp x => if 0x0F < (s.getV x).toNat then some .keyRange else none
  | .sknp x => if 0x0F < (s.getV x).toNat then some .keyRange else none
  | .cls | .jp _ | .seByte _ _ | .sneByte _ _ | .seReg _ _ | .ldByte _ _ | .addByte _ _ | .ldReg _ _ => none
  | .orReg _ _ | .andReg _ _ | .xorReg _ _ | .addReg _ _ | .subReg _ _ | .shr _ _ | .subnReg _ _ => none
  | .shl _ _ | .sneReg _ _ | .ldI _ | .jpV0 _ | .rnd _ _ | .ldVxDt _ | .ldVxK _ | .ldDtVx _ => none
  | .ldStVx _ | .addIVx _ | .ldFVx _ => none

/-- `t` is `s` after `raise Fault(c, w)`: Status, FaultCause and FaultInfo are written and nothing else is, PC included
(R232, R235). -/
structure Faulted (c : FaultCause) (w : Word) (s t : State) : Prop where
  status     : t.status = .fault
  faultCause : t.faultCause = c
  faultInfo  : t.faultInfo = w
  pc         : t.pc = s.pc
  frame      : Frame { status := true, record := true } s t

/-- The next state an answer gives, or `s` where it gives none. -/
def nextOr (r : Result) (s : State) : State :=
  match r with
  | .next t => t
  | .fault _ => s
  | .refused _ => s

/-- The state after the next move. -/
def stepped (s : State) : State := nextOr (step s) s

/-- The state after `n` moves. -/
def after : Nat → State → State
  | 0, s => s
  | n + 1, s => after n (stepped s)

/-- The state after one given move of an agent. -/
def performed (m : Move) (s : State) : State := nextOr (perform m s) s

/-- The state after the given moves, the first one first. -/
def performAll : List Move → State → State
  | [], s => s
  | m :: ms, s => performAll ms (performed m s)

/-- The next move runs the instruction `i`: it is the CPU's, and a running core fetches and decodes `i`. -/
def runsNext (s : State) (i : Instr) : Prop :=
  (nextMove s).1 = .cpu ∧ s.status = .run ∧ s.pc.toNat ≤ 0xFFE ∧ decode s.fetch = .ok i

/-- The top of the call stack, `Stack[SP-1]`. -/
def topOfStack (s : State) : Word := s.stack.toList.getD (s.sp.val - 1) 0

/-- PC at retire by the control class of each instruction, from the table of R41: `next` is PC + 2, `skip` PC + 4, `goto t`
is `t`; FX0A keeps PC until its wait ends. -/
def nextPc (s : State) : Instr → Word
  | .jp addr => addr
  | .jpV0 addr => addr + (s.getV 0).setWidth 16
  | .call addr => addr
  | .ret => topOfStack s + 2
  | .seByte x nn => if s.getV x = nn then s.pc + 4 else s.pc + 2
  | .sneByte x nn => if s.getV x = nn then s.pc + 2 else s.pc + 4
  | .seReg x y => if s.getV x = s.getV y then s.pc + 4 else s.pc + 2
  | .sneReg x y => if s.getV x = s.getV y then s.pc + 2 else s.pc + 4
  | .skp x => if Config.freeKey s.draws (keyOf (s.getV x)) then s.pc + 4 else s.pc + 2
  | .sknp x => if Config.freeKey s.draws (keyOf (s.getV x)) then s.pc + 2 else s.pc + 4
  | .ldVxK _ => s.pc
  | .cls | .ldByte _ _ | .addByte _ _ | .ldReg _ _ | .orReg _ _ | .andReg _ _ | .xorReg _ _ => s.pc + 2
  | .addReg _ _ | .subReg _ _ | .shr _ _ | .subnReg _ _ | .shl _ _ | .ldI _ | .rnd _ _ | .drw _ _ _ => s.pc + 2
  | .ldVxDt _ | .ldDtVx _ | .ldStVx _ | .addIVx _ | .ldFVx _ | .ldBVx _ | .storeRegs _ | .loadRegs _ => s.pc + 2

/-- The invariants of R45 and of the model: memory is canonical; PC is at most 0x10FE; every stack slot holds an address a
fetch can use; FaultCause is NONE exactly outside FAULT; PC is the waiting FX0A's, or the faulting word's, address; a halted
PC is past the last fetch. The bounds of SP, V, DT, ST and I of R45 are their types. -/
structure State.Inv (s : State) : Prop where
  memory  : s.mem.wf
  pc      : s.pc.toNat ≤ 0x10FE
  slots   : ∀ k : Fin 16, (s.stack[k]).toNat ≤ 0xFFE
  cause   : s.faultCause = .none ↔ s.status ≠ .fault
  waiting : s.status = .waitKey → s.pc.toNat ≤ 0xFFE ∧ decode s.fetch = .ok (.ldVxK s.waitReg)
  faulted : s.status = .fault → s.pc.toNat ≤ 0xFFE ∧ s.faultInfo = s.fetch
  halted  : s.status = .halted → 0xFFF ≤ s.pc.toNat

end Sys2Proof.Machine
end

