-- ==== Sys2Proof/Certificates/Slice0/Obligations.lean ====
section
/-! DEFINITION. The statements for the provers. Where a statement names a word, its bits are written as the spec's pattern,
field after field from w[15] down (30_encoding.md R92). -/

open Sys2Proof Sys2Proof.Machine

/-! Encoding -/

/-- R91, R103: the four nibbles are the word's digits in base 16, and recomposing them gives the word back. -/
def Obligations.NibblesRecomposeToTheWord : Prop :=
  ∀ w : Word,
    (splitWord w).n0.toNat = w.toNat / 4096 ∧ (splitWord w).n1.toNat = w.toNat / 256 % 16 ∧
    (splitWord w).n2.toNat = w.toNat / 16 % 16 ∧ (splitWord w).n3.toNat = w.toNat % 16 ∧
    ((splitWord w).n0.setWidth 16 <<< 12 ||| (splitWord w).n1.setWidth 16 <<< 8 |||
      (splitWord w).n2.setWidth 16 <<< 4 ||| (splitWord w).n3.setWidth 16 : Word) = w

/-- R92, R95: no operand is dropped; the word of a well-formed instruction decodes to it. -/
def Obligations.DecodeOfEncodeIsTheInstruction : Prop :=
  ∀ i : Instr, i.wellFormed = true → decode (encode i) = .ok i

/-- R95, R96: a word is the encoding of the instruction it decodes to, so no two words stand for one instruction. -/
def Obligations.EncodeOfDecodeIsTheWord : Prop :=
  ∀ (w : Word) (i : Instr), decode w = .ok i → encode i = w ∧ i.wellFormed = true

/-- R97, R99: the words without an instruction are exactly the ones listed. -/
def Obligations.IllegalWordsAreExactlyTheListed : Prop :=
  ∀ w : Word, (∃ e, decode w = .error e) ↔
    (w.toNat / 4096 = 0x0 ∧ w.toNat ≠ 0x00E0 ∧ w.toNat ≠ 0x00EE) ∨
    (w.toNat / 4096 = 0x5 ∧ w.toNat % 16 ≠ 0) ∨
    (w.toNat / 4096 = 0x8 ∧ w.toNat % 16 ∈ [0x8, 0x9, 0xA, 0xB, 0xC, 0xD, 0xF]) ∨
    (w.toNat / 4096 = 0x9 ∧ w.toNat % 16 ≠ 0) ∨
    (w.toNat / 4096 = 0xE ∧ w.toNat % 256 ∉ [0x9E, 0xA1]) ∨
    (w.toNat / 4096 = 0xF ∧ w.toNat % 256 ∉ [0x07, 0x0A, 0x15, 0x18, 0x1E, 0x29, 0x33, 0x55, 0x65])

/-- 95_test_vectors.md S7, S10 and part 2: a few words, one or more of each family, and what they decode to. -/
def Obligations.SampleWordsDecode : Prop :=
  decode 0x00E0 = .ok .cls ∧ decode 0x1200 = .ok (.jp 0x200) ∧ decode 0x6A02 = .ok (.ldByte 0xA 2) ∧
  decode 0x7A05 = .ok (.addByte 0xA 5) ∧ decode 0x8235 = .ok (.subReg 2 3) ∧ decode 0xDAB5 = .ok (.drw 0xA 0xB 5) ∧
  decode 0xE59E = .ok (.skp 5) ∧ decode 0xF30A = .ok (.ldVxK 3) ∧ decode 0xF255 = .ok (.storeRegs 2) ∧
  decode 0x8128 = .error .aluSubOpcode ∧ decode 0x0123 = .error .machineCall

/-! The step -/

/-- R37: with Status = RUN and two bytes to fetch, the CPU's move is the decoded instruction's effect. Taking a move off
changes only the model's own order of moves, `schedule` and `rounds` (log 1). -/
def Obligations.StepRunsTheDecodedInstruction : Prop :=
  ∀ (s : State) (i : Instr), s.status = .run → s.pc.toNat ≤ 0xFFE → decode s.fetch = .ok i →
    ((nextMove s).1 = .cpu → step s = exec i (nextMove s).2) ∧
    (∀ rest, s.schedule = .cpu :: rest → step s = exec i (s.setSchedule rest)) ∧
    (nextMove s).2.pc = s.pc ∧ Frame { order := true } s (nextMove s).2

/-- R64: the byte at the lower address is the high byte, and the four nibbles follow; beyond memory nothing is fetched and
the core halts. -/
def Obligations.FetchTakesTheLowerAddressAsHighByte : Prop :=
  ∀ s : State,
    s.fetch.toNat = (s.mem.read s.pc.toNat).toNat * 256 + (s.mem.read (s.pc.toNat + 1)).toNat ∧
    splitWord s.fetch =
      ⟨(s.mem.read s.pc.toNat).extractLsb' 4 4, (s.mem.read s.pc.toNat).extractLsb' 0 4,
       (s.mem.read (s.pc.toNat + 1)).extractLsb' 4 4, (s.mem.read (s.pc.toNat + 1)).extractLsb' 0 4⟩ ∧
    (s.status = .run → 0xFFF < s.pc.toNat + 1 → cycle s = .next (s.setStatus .halted))

/-- R42: with PC at 0xFFF or above a CPU step enters HALTED and changes nothing else. -/
def Obligations.FetchBeyondMemoryHalts : Prop :=
  ∀ s : State, s.status = .run → 0xFFF ≤ s.pc.toNat →
    ∃ t, cycle s = .next t ∧ t.status = .halted ∧ t.pc = s.pc ∧ t.faultCause = s.faultCause ∧
      t.faultInfo = s.faultInfo ∧ t.waitReg = s.waitReg ∧ Frame { status := true } s t

/-- R42, R237: run-off-end is the only way into HALTED. -/
def Obligations.OnlyRunOffEndHalts : Prop :=
  ∀ s t : State, s.status ≠ .halted → step s = .next t →
    (t.status = .halted ↔ s.status = .run ∧ 0xFFF ≤ s.pc.toNat ∧ (nextMove s).1 = .cpu)

/-- R38: a CPU step with Status HALTED or FAULT changes nothing, and with WAIT_KEY it makes no progress. -/
def Obligations.StoppedCoreIgnoresCycles : Prop :=
  ∀ s : State, s.status = .halted ∨ s.status = .fault ∨ s.status = .waitKey → cycle s = .next s

/-- R33, R236, R241: no step of any agent leaves HALTED or FAULT, and such a step changes only DT and ST (and the model's own
order of moves). -/
def Obligations.TerminalStatesAreNeverLeft : Prop :=
  ∀ s t : State, s.status = .halted ∨ s.status = .fault → step s = .next t →
    t.pc = s.pc ∧ Frame { dt := true, st := true, order := true } s t

/-- R37, R40, R98: every step of every agent, in every state, answers a next state; no instruction is refused. -/
def Obligations.EveryStepAnswersANextState : Prop :=
  (∀ s : State, ∃ t, step s = .next t) ∧ (∀ (i : Instr) (s : State), ∃ t, exec i s = .next t)

/-- R41: PC at retire is the one of the instruction's control class. -/
def Obligations.PcFollowsTheControlClass : Prop :=
  ∀ (i : Instr) (s t : State), exec i s = .next t → faultOf s i = none → t.pc = nextPc s i

/-- R22, R23, R25 to R28, R31, R72: an instruction that does not fault changes nothing but PC and what its own rule writes. -/
def Obligations.InstructionsChangeOnlyWhatTheirRulesWrite : Prop :=
  ∀ (i : Instr) (s t : State), exec i s = .next t → faultOf s i = none → Frame (mayChange s i) s t

/-! Faults -/

/-- R231, R235: the codes; an illegal word faults with DECODE_ERROR; each listed instruction faults exactly on its listed
condition, with its own word recorded and nothing else written; nothing else faults. -/
def Obligations.FaultsAreExactlyTheListed : Prop :=
  [FaultCause.none, .decodeError, .stackOverflow, .stackUnderflow, .memBounds, .keyRange].map (fun c => c.code.toNat) =
    [0, 1, 2, 3, 4, 5] ∧
  (∀ (s : State) (e : DecodeError), s.status = .run → s.pc.toNat ≤ 0xFFE → decode s.fetch = .error e →
    ∃ t, cycle s = .next t ∧ Faulted .decodeError s.fetch s t) ∧
  (∀ (i : Instr) (s : State) (c : FaultCause), faultOf s i = some c →
    ∃ t, exec i s = .next t ∧ Faulted c (encode i) s t) ∧
  (∀ (i : Instr) (s : State), faultOf s i = none →
    ∃ t, exec i s = .next t ∧ t.faultCause = s.faultCause ∧ t.faultInfo = s.faultInfo ∧
      (t.status = s.status ∨ t.status = .waitKey ∧ ∃ x, i = .ldVxK x))

/-- R233: a CPU step that enters FAULT leaves PC at the faulting instruction, the word there recorded, and writes nothing
else. -/
def Obligations.FaultsArePrecise : Prop :=
  ∀ s t : State, s.status = .run → cycle s = .next t → t.status = .fault →
    ∃ c, c ≠ .none ∧ Faulted c s.fetch s t

/-! Control flow -/

/-- R121: 1NNN. -/
def Obligations.JumpSetsPc : Prop :=
  ∀ (nnn : BitVec 12) (s : State),
    decode (0x1#4 ++ nnn) = .ok (.jp (nnn.setWidth 16)) ∧
    ∃ t, exec (.jp (nnn.setWidth 16)) s = .next t ∧ t.pc.toNat = nnn.toNat ∧ Frame {} s t

/-- R122: BNNN adds V0, or under JUMP_OFFSET_REG = VX the register its second nibble names, and the sum is never reduced. -/
def Obligations.JumpWithOffsetAddsTheRegister : Prop :=
  ∀ (nnn : BitVec 12) (s : State),
    decode (0xB#4 ++ nnn) = .ok (.jpV0 (nnn.setWidth 16)) ∧
    (∃ t, exec (.jpV0 (nnn.setWidth 16)) s = .next t ∧ t.pc.toNat = nnn.toNat + (s.getV 0).toNat ∧ Frame {} s t) ∧
    (∀ q : Quirks, q.jumpOffsetReg = .vx → ∀ x : Reg, x.val = nnn.toNat / 256 →
      (jumpTarget q s (nnn.setWidth 16)).toNat = nnn.toNat + (s.getV x).toNat)

/-- R123: 2NNN pushes its own address and jumps; with SP = 16 it faults with STACK_OVERFLOW. -/
def Obligations.CallPushesItsOwnAddress : Prop :=
  ∀ (nnn : BitVec 12) (s : State),
    decode (0x2#4 ++ nnn) = .ok (.call (nnn.setWidth 16)) ∧
    (s.sp.val < 16 → ∃ t, exec (.call (nnn.setWidth 16)) s = .next t ∧ t.pc.toNat = nnn.toNat ∧
      t.sp.val = s.sp.val + 1 ∧
      (∀ k : Fin 16, t.stack[k] = if k.val = s.sp.val then s.pc else s.stack[k]) ∧
      Frame { slots := fun k => k.val = s.sp.val, sp := true } s t) ∧
    (s.sp.val = 16 → ∃ t, exec (.call (nnn.setWidth 16)) s = .next t ∧ Faulted .stackOverflow (0x2#4 ++ nnn) s t)

/-- R124: 00EE resumes 2 past the saved address, the slot keeping its value; with SP = 0 it faults with STACK_UNDERFLOW. -/
def Obligations.ReturnResumesPastTheCall : Prop :=
  ∀ s : State,
    decode 0x00EE = .ok .ret ∧
    (∀ k : Fin 16, s.sp.val = k.val + 1 → ∃ t, exec .ret s = .next t ∧ t.pc = s.stack[k] + 2 ∧
      t.sp.val = k.val ∧ t.stack = s.stack ∧ Frame { sp := true } s t) ∧
    (s.sp.val = 0 → ∃ t, exec .ret s = .next t ∧ Faulted .stackUnderflow 0x00EE s t)

/-- R124, the source's testable property: after a call, whatever the callee does above the pushed frame, the return restores
PC to the call's address + 2 and SP to its value before the call, at any depth up to 16. -/
def Obligations.CallThenReturnRestores : Prop :=
  ∀ (addr : Word) (s t u : State), s.sp.val < 16 → exec (.call addr) s = .next t → u.sp = t.sp →
    (∀ k : Fin 16, k.val < t.sp.val → u.stack[k] = t.stack[k]) →
    ∃ r, exec .ret u = .next r ∧ r.pc = s.pc + 2 ∧ r.sp = s.sp ∧
      (∀ k : Fin 16, k.val < s.sp.val → r.stack[k] = s.stack[k])

/-- R125 to R128: the register skips advance PC by 4 when the condition holds and by 2 otherwise, and change nothing else;
5XYN and 9XYN with N not 0 are illegal. -/
def Obligations.RegisterSkipsAdvanceByFourOrTwo : Prop :=
  ∀ (x y : Reg) (nn : Byte) (s : State),
    (decode (0x3#4 ++ regNibble x ++ nn) = .ok (.seByte x nn) ∧ ∃ t, exec (.seByte x nn) s = .next t ∧
      t.pc = (if s.getV x = nn then s.pc + 4 else s.pc + 2) ∧ Frame {} s t) ∧
    (decode (0x4#4 ++ regNibble x ++ nn) = .ok (.sneByte x nn) ∧ ∃ t, exec (.sneByte x nn) s = .next t ∧
      t.pc = (if s.getV x ≠ nn then s.pc + 4 else s.pc + 2) ∧ Frame {} s t) ∧
    (decode (0x5#4 ++ regNibble x ++ regNibble y ++ 0x0#4) = .ok (.seReg x y) ∧ ∃ t, exec (.seReg x y) s = .next t ∧
      t.pc = (if s.getV x = s.getV y then s.pc + 4 else s.pc + 2) ∧ Frame {} s t) ∧
    (decode (0x9#4 ++ regNibble x ++ regNibble y ++ 0x0#4) = .ok (.sneReg x y) ∧ ∃ t, exec (.sneReg x y) s = .next t ∧
      t.pc = (if s.getV x ≠ s.getV y then s.pc + 4 else s.pc + 2) ∧ Frame {} s t) ∧
    (∀ k : Nibble, k ≠ 0 →
      decode (0x5#4 ++ regNibble x ++ regNibble y ++ k) = .error .seRegLowNibble ∧
      decode (0x9#4 ++ regNibble x ++ regNibble y ++ k) = .error .sneRegLowNibble)

/-! Arithmetic and logic -/

/-- R141, R142, R144: the loads and the immediate add write V[X] only, and no flag. -/
def Obligations.LoadsAndImmediateAddWriteOnlyX : Prop :=
  ∀ (x y : Reg) (nn : Byte) (s : State),
    (decode (0x6#4 ++ regNibble x ++ nn) = .ok (.ldByte x nn) ∧ ∃ t, exec (.ldByte x nn) s = .next t ∧
      t.getV x = nn ∧ t.pc = s.pc + 2 ∧ Frame { regs := fun r => r = x } s t) ∧
    (decode (0x7#4 ++ regNibble x ++ nn) = .ok (.addByte x nn) ∧ ∃ t, exec (.addByte x nn) s = .next t ∧
      (t.getV x).toNat = ((s.getV x).toNat + nn.toNat) % 256 ∧ t.pc = s.pc + 2 ∧
      Frame { regs := fun r => r = x } s t) ∧
    (decode (0x8#4 ++ regNibble x ++ regNibble y ++ 0x0#4) = .ok (.ldReg x y) ∧ ∃ t, exec (.ldReg x y) s = .next t ∧
      t.getV x = s.getV y ∧ t.pc = s.pc + 2 ∧ Frame { regs := fun r => r = x } s t)

/-- R145 to R147: the bitwise operations, bit by bit; VF is not written at the default, and is 0 when LOGIC_VF_RESET holds. -/
def Obligations.BitwiseOperationsActOnEachBit : Prop :=
  ∀ (x y : Reg) (s : State),
    (decode (0x8#4 ++ regNibble x ++ regNibble y ++ 0x1#4) = .ok (.orReg x y) ∧ ∃ t, exec (.orReg x y) s = .next t ∧
      (∀ k, (t.getV x).getLsbD k = ((s.getV x).getLsbD k || (s.getV y).getLsbD k)) ∧ t.pc = s.pc + 2 ∧
      Frame { regs := fun r => r = x } s t) ∧
    (decode (0x8#4 ++ regNibble x ++ regNibble y ++ 0x2#4) = .ok (.andReg x y) ∧ ∃ t, exec (.andReg x y) s = .next t ∧
      (∀ k, (t.getV x).getLsbD k = ((s.getV x).getLsbD k && (s.getV y).getLsbD k)) ∧ t.pc = s.pc + 2 ∧
      Frame { regs := fun r => r = x } s t) ∧
    (decode (0x8#4 ++ regNibble x ++ regNibble y ++ 0x3#4) = .ok (.xorReg x y) ∧ ∃ t, exec (.xorReg x y) s = .next t ∧
      (∀ k, (t.getV x).getLsbD k = ((s.getV x).getLsbD k ^^ (s.getV y).getLsbD k)) ∧ t.pc = s.pc + 2 ∧
      Frame { regs := fun r => r = x } s t) ∧
    (∀ (q : Quirks) (r : Byte), q.logicVfReset = true →
      (s.setLogic q x r).getV vF = 0 ∧ (x ≠ vF → (s.setLogic q x r).getV x = r))

/-- R148, R149, R151: the sum and the differences wrap at 256 and VF, written last, is the carry or the no-borrow flag. -/
def Obligations.AddAndSubtractWrapAndSetTheFlag : Prop :=
  ∀ (x y : Reg) (s : State),
    (decode (0x8#4 ++ regNibble x ++ regNibble y ++ 0x4#4) = .ok (.addReg x y) ∧ ∃ t, exec (.addReg x y) s = .next t ∧
      (x ≠ vF → (t.getV x).toNat = ((s.getV x).toNat + (s.getV y).toNat) % 256) ∧
      (t.getV vF).toNat = (if (s.getV x).toNat + (s.getV y).toNat > 255 then 1 else 0) ∧
      t.pc = s.pc + 2 ∧ Frame { regs := fun r => r = x || r = vF } s t) ∧
    (decode (0x8#4 ++ regNibble x ++ regNibble y ++ 0x5#4) = .ok (.subReg x y) ∧ ∃ t, exec (.subReg x y) s = .next t ∧
      (x ≠ vF → (t.getV x).toNat = ((s.getV x).toNat + 256 - (s.getV y).toNat) % 256) ∧
      (t.getV vF).toNat = (if (s.getV x).toNat ≥ (s.getV y).toNat then 1 else 0) ∧
      t.pc = s.pc + 2 ∧ Frame { regs := fun r => r = x || r = vF } s t) ∧
    (decode (0x8#4 ++ regNibble x ++ regNibble y ++ 0x7#4) = .ok (.subnReg x y) ∧ ∃ t, exec (.subnReg x y) s = .next t ∧
      (x ≠ vF → (t.getV x).toNat = ((s.getV y).toNat + 256 - (s.getV x).toNat) % 256) ∧
      (t.getV vF).toNat = (if (s.getV y).toNat ≥ (s.getV x).toNat then 1 else 0) ∧
      t.pc = s.pc + 2 ∧ Frame { regs := fun r => r = x || r = vF } s t)

/-- R150, R152: the shifts by one; VF, written last, is the bit put out. At the default the source is V[X]; under
SHIFT_SRC = VY it is V[Y]. -/
def Obligations.ShiftsByOneCaptureTheBitPutOut : Prop :=
  ∀ (x y : Reg) (s : State),
    (decode (0x8#4 ++ regNibble x ++ regNibble y ++ 0x6#4) = .ok (.shr x y) ∧ ∃ t, exec (.shr x y) s = .next t ∧
      (x ≠ vF → (t.getV x).toNat = (s.getV x).toNat / 2) ∧ (t.getV vF).toNat = (s.getV x).toNat % 2 ∧
      t.pc = s.pc + 2 ∧ Frame { regs := fun r => r = x || r = vF } s t) ∧
    (decode (0x8#4 ++ regNibble x ++ regNibble y ++ 0xE#4) = .ok (.shl x y) ∧ ∃ t, exec (.shl x y) s = .next t ∧
      (x ≠ vF → (t.getV x).toNat = (s.getV x).toNat * 2 % 256) ∧ (t.getV vF).toNat = (s.getV x).toNat / 128 ∧
      t.pc = s.pc + 2 ∧ Frame { regs := fun r => r = x || r = vF } s t) ∧
    (∀ q : Quirks, q.shiftSrc = .vy →
      (x ≠ vF → ((s.shiftRight q x y).getV x).toNat = (s.getV y).toNat / 2 ∧
        ((s.shiftLeft q x y).getV x).toNat = (s.getV y).toNat * 2 % 256) ∧
      ((s.shiftRight q x y).getV vF).toNat = (s.getV y).toNat % 2 ∧
      ((s.shiftLeft q x y).getV vF).toNat = (s.getV y).toNat / 128)

/-! Index register and memory -/

/-- R171, R172, R177: the three writers of I; VF is not written and I wraps at 2^16. -/
def Obligations.IndexWritersSetI : Prop :=
  ∀ (nnn : BitVec 12) (x : Reg) (s : State),
    (decode (0xA#4 ++ nnn) = .ok (.ldI (nnn.setWidth 16)) ∧ ∃ t, exec (.ldI (nnn.setWidth 16)) s = .next t ∧
      t.i.toNat = nnn.toNat ∧ t.pc = s.pc + 2 ∧ Frame { index := true } s t) ∧
    (decode (0xF#4 ++ regNibble x ++ 0x1E#8) = .ok (.addIVx x) ∧ ∃ t, exec (.addIVx x) s = .next t ∧
      t.i.toNat = (s.i.toNat + (s.getV x).toNat) % 65536 ∧ t.pc = s.pc + 2 ∧ Frame { index := true } s t) ∧
    (decode (0xF#4 ++ regNibble x ++ 0x29#8) = .ok (.ldFVx x) ∧ ∃ t, exec (.ldFVx x) s = .next t ∧
      t.i.toNat = 5 * ((s.getV x).toNat % 16) ∧ t.pc = s.pc + 2 ∧ Frame { index := true } s t)

/-- R174: FX55 stores V0..V[X] at I up, or faults with MEM_BOUNDS; I is as LDST_I_INCREMENT says, unchanged at the default. -/
def Obligations.StoreWritesTheLowRegisters : Prop :=
  ∀ (x : Reg) (s : State),
    decode (0xF#4 ++ regNibble x ++ 0x55#8) = .ok (.storeRegs x) ∧
    (s.i.toNat + x.val ≤ 0xFFF → ∃ t, exec (.storeRegs x) s = .next t ∧
      (∀ k : Reg, k.val ≤ x.val → t.mem.read (s.i.toNat + k.val) = s.getV k) ∧ t.pc = s.pc + 2 ∧
      Frame { memory := span s.i.toNat (x.val + 1) } s t) ∧
    (s.i.toNat + x.val > 0xFFF → ∃ t, exec (.storeRegs x) s = .next t ∧
      Faulted .memBounds (0xF#4 ++ regNibble x ++ 0x55#8) s t) ∧
    (∀ q : Quirks, (s.storeLow q x).i.toNat =
      match q.ldstIncrement with
      | .unchanged => s.i.toNat
      | .xPlusOne => (s.i.toNat + x.val + 1) % 65536
      | .x => (s.i.toNat + x.val) % 65536)

/-- R175: FX65 loads V0..V[X] from I up, or faults with MEM_BOUNDS; I is as LDST_I_INCREMENT says, unchanged at the default. -/
def Obligations.LoadReadsTheLowRegisters : Prop :=
  ∀ (x : Reg) (s : State),
    decode (0xF#4 ++ regNibble x ++ 0x65#8) = .ok (.loadRegs x) ∧
    (s.i.toNat + x.val ≤ 0xFFF → ∃ t, exec (.loadRegs x) s = .next t ∧
      (∀ k : Reg, k.val ≤ x.val → t.getV k = s.mem.read (s.i.toNat + k.val)) ∧ t.pc = s.pc + 2 ∧
      Frame { regs := fun r => r.val ≤ x.val } s t) ∧
    (s.i.toNat + x.val > 0xFFF → ∃ t, exec (.loadRegs x) s = .next t ∧
      Faulted .memBounds (0xF#4 ++ regNibble x ++ 0x65#8) s t) ∧
    (∀ q : Quirks, (s.loadLowThenIndex q x).i.toNat =
      match q.ldstIncrement with
      | .unchanged => s.i.toNat
      | .xPlusOne => (s.i.toNat + x.val + 1) % 65536
      | .x => (s.i.toNat + x.val) % 65536)

/-- R176: FX33 stores hundreds, tens and ones at I, I+1 and I+2, or faults with MEM_BOUNDS. -/
def Obligations.BcdStoresTheDecimalDigits : Prop :=
  ∀ (x : Reg) (s : State),
    decode (0xF#4 ++ regNibble x ++ 0x33#8) = .ok (.ldBVx x) ∧
    (s.i.toNat + 2 ≤ 0xFFF → ∃ t, exec (.ldBVx x) s = .next t ∧
      (t.mem.read s.i.toNat).toNat = (s.getV x).toNat / 100 ∧
      (t.mem.read (s.i.toNat + 1)).toNat = (s.getV x).toNat / 10 % 10 ∧
      (t.mem.read (s.i.toNat + 2)).toNat = (s.getV x).toNat % 10 ∧ t.pc = s.pc + 2 ∧
      Frame { memory := span s.i.toNat 3 } s t) ∧
    (s.i.toNat + 2 > 0xFFF → ∃ t, exec (.ldBVx x) s = .next t ∧
      Faulted .memBounds (0xF#4 ++ regNibble x ++ 0x33#8) s t)

/-- R174, R175: registers stored by FX55 come back by FX65 at the same I, whatever the registers hold by then. -/
def Obligations.LoadAfterStoreRestoresTheRegisters : Prop :=
  ∀ (x : Reg) (s t u : State), s.i.toNat + x.val ≤ 0xFFF → exec (.storeRegs x) s = .next t → u.mem = t.mem → u.i = s.i →
    ∃ r, exec (.loadRegs x) u = .next r ∧ (∀ k : Reg, k.val ≤ x.val → r.getV k = s.getV k) ∧
      (∀ k : Reg, ¬ k.val ≤ x.val → r.getV k = u.getV k)

/-- R76: bytes stored by FX55 over the next instruction are what the very next step fetches. -/
def Obligations.StoredBytesAreFetchedNext : Prop :=
  ∀ (x k l : Reg) (s t : State), s.i.toNat + x.val ≤ 0xFFF → exec (.storeRegs x) s = .next t →
    l.val = k.val + 1 → l.val ≤ x.val → (s.pc + 2).toNat = s.i.toNat + k.val →
    t.fetch.toNat = (s.getV k).toNat * 256 + (s.getV l).toNat

/-- log 4: memories in canonical form that read the same everywhere are the same list. -/
def Obligations.EqualMemoriesAreEqualLists : Prop :=
  ∀ m n : Memory, m.wf → n.wf → (∀ a, m.read a = n.read a) → m = n

/-! Random and display -/

/-- R191: CXNN writes a random byte masked by NN. The byte is free: `Config.freeRandom` has no value (log 2). -/
def Obligations.RandomByteIsMasked : Prop :=
  ∀ (x : Reg) (nn : Byte) (s : State),
    decode (0xC#4 ++ regNibble x ++ nn) = .ok (.rnd x nn) ∧ ∃ t, exec (.rnd x nn) s = .next t ∧
      t.getV x = Config.freeRandom s.draws &&& nn ∧ t.draws = s.draws + 1 ∧ t.pc = s.pc + 2 ∧
      (∀ k, nn.getLsbD k = false → (t.getV x).getLsbD k = false) ∧
      Frame { regs := fun r => r = x, draws := true } s t

/-- R192: 00E0 clears every pixel. -/
def Obligations.ClearBlanksEveryPixel : Prop :=
  ∀ s : State, decode 0x00E0 = .ok .cls ∧ ∃ t, exec .cls s = .next t ∧ (∀ x y, t.fb.pixel x y = false) ∧
    t.pc = s.pc + 2 ∧ Frame { pixels := true } s t

/-- R193, R194: DXYN flips exactly the wrapped pixels under the set bits of the N bytes at I, bit 7 leftmost, and VF is 1
exactly when one of them was set; with N = 0 it draws nothing; beyond memory it faults with MEM_BOUNDS. -/
def Obligations.DrawXorsTheWrappedSprite : Prop :=
  ∀ (x y : Reg) (n : Nibble) (s : State),
    decode (0xD#4 ++ regNibble x ++ regNibble y ++ n) = .ok (.drw x y n.toNat) ∧
    (n.toNat = 0 ∨ s.i.toNat + n.toNat - 1 ≤ 0xFFF → ∃ t, exec (.drw x y n.toNat) s = .next t ∧
      (∀ c r, c < 8 → r < n.toNat →
        t.fb.pixel ((s.getV x).toNat % 64 + c) ((s.getV y).toNat % 32 + r) =
          (s.fb.pixel ((s.getV x).toNat % 64 + c) ((s.getV y).toNat % 32 + r) ^^
            (s.mem.read (s.i.toNat + r)).getLsbD (7 - c))) ∧
      (∀ a b, (∀ c r, c < 8 → r < n.toNat →
          ¬ (a % 64 = ((s.getV x).toNat % 64 + c) % 64 ∧ b % 32 = ((s.getV y).toNat % 32 + r) % 32)) →
        t.fb.pixel a b = s.fb.pixel a b) ∧
      (t.getV vF = 0 ∨ t.getV vF = 1) ∧
      (t.getV vF = 1 ↔ ∃ c r, c < 8 ∧ r < n.toNat ∧ (s.mem.read (s.i.toNat + r)).getLsbD (7 - c) = true ∧
        s.fb.pixel ((s.getV x).toNat % 64 + c) ((s.getV y).toNat % 32 + r) = true) ∧
      t.pc = s.pc + 2 ∧ Frame { regs := fun r => r = vF, pixels := true } s t) ∧
    (n.toNat ≥ 1 ∧ s.i.toNat + n.toNat - 1 > 0xFFF → ∃ t, exec (.drw x y n.toNat) s = .next t ∧
      Faulted .memBounds (0xD#4 ++ regNibble x ++ regNibble y ++ n) s t)

/-- R193, R195: the laws of the raster controller. A second draw of the same sprite restores FB; it collides exactly when a
pixel under a set bit was clear before the first, so R195's "if and only if some byte is non-zero" holds when the first draw
did not collide, and not otherwise: there R193's pseudocode wins (log 17). -/
def Obligations.DrawingTwiceRestores : Prop :=
  ∀ (f : Framebuffer) (x y : Nat) (rows : List Byte), rows.length ≤ 15 →
    ((f.draw x y rows).1.draw x y rows).1 = f ∧
    ((f.draw x y rows).2 = true ↔ ∃ c r, c < 8 ∧ r < rows.length ∧ (rows.getD r 0).getLsbD (7 - c) = true ∧
      f.pixel (x + c) (y + r) = true) ∧
    (((f.draw x y rows).1.draw x y rows).2 = true ↔ ∃ c r, c < 8 ∧ r < rows.length ∧
      (rows.getD r 0).getLsbD (7 - c) = true ∧ f.pixel (x + c) (y + r) = false) ∧
    ((f.draw x y rows).2 = false →
      (((f.draw x y rows).1.draw x y rows).2 = true ↔ ∃ row ∈ rows, row ≠ 0)) ∧
    (∀ a b, (f.draw x y rows).1.pixel a b ≠ f.pixel a b → ∃ c r, c < 8 ∧ r < rows.length ∧
      (rows.getD r 0).getLsbD (7 - c) = true ∧ a % 64 = (x + c) % 64 ∧ b % 32 = (y + r) % 32)

/-! Keyboard and timers -/

/-- R211 to R213: the key skips query the key once and follow the answer, which is free (`Config.freeKey`, log 2); with
V[X] above 0x0F they fault with KEY_RANGE and query nothing. -/
def Obligations.KeySkipsFollowTheAnswer : Prop :=
  ∀ (x : Reg) (s : State),
    decode (0xE#4 ++ regNibble x ++ 0x9E#8) = .ok (.skp x) ∧ decode (0xE#4 ++ regNibble x ++ 0xA1#8) = .ok (.sknp x) ∧
    (∀ k : Nibble, (s.getV x).toNat = k.toNat →
      (∃ t, exec (.skp x) s = .next t ∧ t.pc = (if Config.freeKey s.draws k then s.pc + 4 else s.pc + 2) ∧
        t.draws = s.draws + 1 ∧ Frame { draws := true } s t) ∧
      (∃ t, exec (.sknp x) s = .next t ∧ t.pc = (if Config.freeKey s.draws k then s.pc + 2 else s.pc + 4) ∧
        t.draws = s.draws + 1 ∧ Frame { draws := true } s t)) ∧
    ((s.getV x).toNat > 0x0F →
      (∃ t, exec (.skp x) s = .next t ∧ Faulted .keyRange (0xE#4 ++ regNibble x ++ 0x9E#8) s t) ∧
      (∃ t, exec (.sknp x) s = .next t ∧ Faulted .keyRange (0xE#4 ++ regNibble x ++ 0xA1#8) s t))

/-- R44, R214, R253: FX0A suspends the core with PC held; a press delivered while it waits stores the key, moves PC by 2 and
resumes; a press at any other time, in RUN, HALTED or FAULT, changes nothing (D16, log 7). The order of moves is the model's
own (log 1). -/
def Obligations.KeyWaitSuspendsAndAPressResumes : Prop :=
  (∀ (x : Reg) (s : State), decode (0xF#4 ++ regNibble x ++ 0x0A#8) = .ok (.ldVxK x) ∧
    ∃ t, exec (.ldVxK x) s = .next t ∧ t.status = .waitKey ∧ t.waitReg = x ∧ t.pc = s.pc ∧
      Frame { status := true, waitReg := true } s t) ∧
  (∀ (s : State) (k : Nibble), s.status = .waitKey → (nextMove s).1 = .press k →
    ∃ t, step s = .next t ∧ (t.getV s.waitReg).toNat = k.toNat ∧ t.pc = s.pc + 2 ∧ t.status = .run ∧
      Frame { regs := fun r => r = s.waitReg, status := true, order := true } s t) ∧
  (∀ (s : State) (k : Nibble), s.status ≠ .waitKey → (nextMove s).1 = .press k →
    ∃ t, step s = .next t ∧ t.pc = s.pc ∧ Frame { order := true } s t)

/-- R44, R247: only a press ends the wait, and until then no step changes anything but DT and ST (and the model's own
order of moves). -/
def Obligations.OnlyAPressEndsTheWait : Prop :=
  ∀ s t : State, s.status = .waitKey → step s = .next t →
    (t.status = .run ∧ ∃ k, (nextMove s).1 = .press k) ∨
    (t.pc = s.pc ∧ Frame { dt := true, st := true, order := true } s t)

/-- R247: WAIT_KEY is entered only by FX0A. -/
def Obligations.OnlyTheKeyWaitSuspends : Prop :=
  ∀ s t : State, s.status ≠ .waitKey → step s = .next t → t.status = .waitKey →
    ∃ x, decode s.fetch = .ok (.ldVxK x) ∧ t.waitReg = x ∧ t.pc = s.pc

/-- R215, R216, R218: the timer instructions. -/
def Obligations.TimerInstructionsCopyOneByte : Prop :=
  ∀ (x : Reg) (s : State),
    (decode (0xF#4 ++ regNibble x ++ 0x07#8) = .ok (.ldVxDt x) ∧ ∃ t, exec (.ldVxDt x) s = .next t ∧
      t.getV x = s.dt ∧ t.pc = s.pc + 2 ∧ Frame { regs := fun r => r = x } s t) ∧
    (decode (0xF#4 ++ regNibble x ++ 0x15#8) = .ok (.ldDtVx x) ∧ ∃ t, exec (.ldDtVx x) s = .next t ∧
      t.dt = s.getV x ∧ t.pc = s.pc + 2 ∧ Frame { dt := true } s t) ∧
    (decode (0xF#4 ++ regNibble x ++ 0x18#8) = .ok (.ldStVx x) ∧ ∃ t, exec (.ldStVx x) s = .next t ∧
      t.st = s.getV x ∧ t.pc = s.pc + 2 ∧ Frame { st := true } s t)

/-- R241: a tick lowers its timer by one unless it is 0, in every Status, and changes nothing else. -/
def Obligations.TicksCountDownToZero : Prop :=
  ∀ s : State,
    ((nextMove s).1 = .tickDt → ∃ t, step s = .next t ∧ t.dt.toNat = s.dt.toNat - 1 ∧ t.pc = s.pc ∧
      Frame { dt := true, order := true } s t) ∧
    ((nextMove s).1 = .tickSt → ∃ t, step s = .next t ∧ t.st.toNat = s.st.toNat - 1 ∧ t.pc = s.pc ∧
      Frame { st := true, order := true } s t)

/-- R277: a read of DT after a set and any number of ticks gives the value set less the ticks, at least 0. -/
def Obligations.TimerReadAfterSetAndTicks : Prop :=
  ∀ (x y : Reg) (n : Nat) (s t : State), exec (.ldDtVx x) s = .next t →
    ∃ u, exec (.ldVxDt y) (State.tickDt^[n] t) = .next u ∧ (u.getV y).toNat = (s.getV x).toNat - n

/-- R242, R74: a DT tick before an instruction that neither reads nor sets DT is the same as the tick after it. -/
def Obligations.DtTicksCommuteWithOtherInstructions : Prop :=
  ∀ (i : Instr) (s t : State), (∀ x, i ≠ .ldVxDt x) → (∀ x, i ≠ .ldDtVx x) → exec i s = .next t →
    exec i s.tickDt = .next t.tickDt

/-- R17, R242: the agents may move in any order. Whatever finite list of moves is settled, exactly those moves are made, one
after another in that order; what the machine becomes does not depend on the moves still to come. The list that settles them is
the model's own `schedule` (log 1); after it the order is a free value, so a claim over a run holds for every order. -/
def Obligations.AgentsMoveInAnyOrder : Prop :=
  ∀ (ms rest : List Move) (s : State),
    after ms.length (s.setSchedule (ms ++ rest)) = (performAll ms s).setSchedule rest

/-- R243: from every state each timer ticks again after finitely many moves, whatever the free order of the moves, which is the
model's own (log 1). That this holds in HALTED and FAULT too is the model's choice, which R241 allows (log 14). -/
def Obligations.EveryTimerTicksAgain : Prop :=
  ∀ s : State, (∃ n, (nextMove (after n s)).1 = .tickDt) ∧ (∃ n, (nextMove (after n s)).1 = .tickSt)

/-- R241, R243: absent sets, a timer never grows, falls below any value but 0, and reaches 0 and stays there. The order of the
moves is the model's own (log 1). That this holds in HALTED and FAULT too is the model's choice, which R241 allows (log 14). -/
def Obligations.TimersRunDownWithoutSets : Prop :=
  ∀ s : State,
    ((∀ n x, ¬ runsNext (after n s) (.ldDtVx x)) →
      (∀ n, (after (n + 1) s).dt.toNat ≤ (after n s).dt.toNat) ∧
      (∀ n, (after n s).dt ≠ 0 → ∃ m, n < m ∧ (after m s).dt.toNat < (after n s).dt.toNat) ∧
      (∃ n, ∀ m, n ≤ m → (after m s).dt = 0)) ∧
    ((∀ n x, ¬ runsNext (after n s) (.ldStVx x)) →
      (∀ n, (after (n + 1) s).st.toNat ≤ (after n s).st.toNat) ∧
      (∀ n, (after n s).st ≠ 0 → ∃ m, n < m ∧ (after m s).st.toNat < (after n s).st.toNat) ∧
      (∃ n, ∀ m, n ≤ m → (after m s).st = 0))

/-- R28: no instruction reads ST: another ST leads to the same next state but for ST. -/
def Obligations.NoInstructionReadsSt : Prop :=
  ∀ (i : Instr) (s t : State) (b : Byte), exec i s = .next t →
    ∃ u, exec i (s.setSt b) = .next u ∧ u.setSt 0 = t.setSt 0 ∧
      (u.st = b ∨ ∃ x, i = .ldStVx x ∧ u.st = s.getV x)

/-! Reset, load and the invariant -/

/-- R270, R71: every piece of state after construction, the 16 glyphs byte by byte among them. -/
def Obligations.ResetLeavesTheListedState : Prop :=
  (∀ r, State.reset.getV r = 0) ∧ State.reset.i = 0 ∧ State.reset.pc.toNat = 0x200 ∧
  (∀ k : Fin 16, State.reset.stack[k] = 0) ∧ State.reset.sp.val = 0 ∧ State.reset.dt = 0 ∧ State.reset.st = 0 ∧
  (∀ d k, d < 16 → k < 5 → (State.reset.mem.read (5 * d + k)).toNat =
    [0xF0909090F0, 0x2060202070, 0xF010F080F0, 0xF010F010F0, 0x9090F01010, 0xF080F010F0, 0xF080F090F0, 0xF010204040,
     0xF090F090F0, 0xF090F010F0, 0xF090F09090, 0xE090E090E0, 0xF0808080F0, 0xE0909090E0, 0xF080F080F0,
     0xF080F08080].getD d 0 / 256 ^ (4 - k) % 256) ∧
  (∀ a, 0x50 ≤ a → State.reset.mem.read a = 0) ∧ (∀ x y, State.reset.fb.pixel x y = false) ∧
  State.reset.status = .run ∧ State.reset.faultCause = .none ∧ State.reset.faultInfo = 0 ∧ State.reset.waitReg = 0

/-- R69: load copies min(len, 4096 - address) bytes, returns that count and touches nothing else. -/
def Obligations.LoadCopiesWhatFits : Prop :=
  ∀ (s : State) (address : Nat) (bytes : List Byte),
    (s.load address bytes).2 = min bytes.length (4096 - address) ∧
    (∀ k, k < (s.load address bytes).2 → (s.load address bytes).1.mem.read (address + k) = bytes.getD k 0) ∧
    (s.load address bytes).1.pc = s.pc ∧
    Frame { memory := span address (s.load address bytes).2 } s (s.load address bytes).1

/-- R271, R273: the first CPU step of a booted machine runs the program's first word. -/
def Obligations.BootedProgramIsFetchedFirst : Prop :=
  ∀ (hi lo : Byte) (rest : List Byte) (i : Instr), decode (hi ++ lo) = .ok i →
    (boot (hi :: lo :: rest)).pc.toNat = 0x200 ∧ cycle (boot (hi :: lo :: rest)) = exec i (boot (hi :: lo :: rest))

/-- R45: the invariants hold after construction. -/
def Obligations.ResetSatisfiesTheInvariant : Prop := State.reset.Inv

/-- R45: every step of every agent keeps the invariants. -/
def Obligations.EveryStepKeepsTheInvariant : Prop :=
  ∀ s t : State, s.Inv → step s = .next t → t.Inv

/-- R237, R256: a run that completes ends HALTED with no cause recorded; one that fails ends in FAULT with a cause and the
word at PC recorded. -/
def Obligations.RunsEndHaltedOrWithARecordedFault : Prop :=
  ∀ (n : Nat) (s t : State), s.Inv →
    (runLoop n s = .completed t → t.status = .halted ∧ t.faultCause = .none ∧ 0xFFF ≤ t.pc.toNat) ∧
    (runLoop n s = .failed t → t.status = .fault ∧ t.faultCause ≠ .none ∧ t.faultInfo = t.fetch)
end

