-- ==== Sys2Proof/Laws/Decode.lean ====
section
/-! SUPPORT. Splitting and joining words: what each pattern of R92 splits into, and the fields of an encoded operand. -/

namespace Sys2Proof

/-- A concatenation as a number. -/
theorem toNat_append {m n : Nat} (a : BitVec m) (b : BitVec n) : (a ++ b).toNat = a.toNat * 2 ^ n + b.toNat := by
  rw [BitVec.toNat_append, ← Nat.shiftLeft_add_eq_or_of_lt b.isLt, Nat.shiftLeft_eq]

/-- A bit field as a number. -/
theorem toNat_field {m : Nat} (a : BitVec m) (lo len : Nat) :
    (a.extractLsb' lo len).toNat = a.toNat / 2 ^ lo % 2 ^ len := by
  rw [BitVec.extractLsb'_toNat, Nat.shiftRight_eq_div_pow]

@[simp] theorem splitWord_joinNibbles (f : Nibbles) : splitWord (joinNibbles f) = f := by
  obtain ⟨a, b, c, d⟩ := f
  have := a.isLt; have := b.isLt; have := c.isLt; have := d.isLt
  simp only [splitWord, joinNibbles, Nibbles.mk.injEq]
  refine ⟨?_, ?_, ?_, ?_⟩ <;>
  · apply BitVec.eq_of_toNat_eq
    simp only [toNat_field, toNat_append]
    omega

theorem joinNibbles_splitWord (w : Word) : joinNibbles (splitWord w) = w := by
  have := w.isLt
  apply BitVec.eq_of_toNat_eq
  simp only [splitWord, joinNibbles, toNat_field, toNat_append]
  omega

/-- A word of format A splits into its primary nibble and the nibbles of NNN. -/
theorem splitWord_patternA (op : Nibble) (nnn : BitVec 12) :
    splitWord (op ++ nnn) = formatA op (nnn.setWidth 16) := by
  have := op.isLt; have := nnn.isLt
  simp only [splitWord, formatA, Nibbles.mk.injEq]
  refine ⟨?_, ?_, ?_, ?_⟩ <;>
  · apply BitVec.eq_of_toNat_eq
    simp only [toNat_field, toNat_append, BitVec.toNat_setWidth]
    omega

/-- A word of format XNN, or Xss, splits into its primary nibble, X and the nibbles of NN. -/
theorem splitWord_patternXNN (op : Nibble) (x : Reg) (nn : Byte) :
    splitWord (op ++ regNibble x ++ nn) = formatXNN op x nn := by
  have := op.isLt; have := (regNibble x).isLt; have := nn.isLt
  simp only [splitWord, formatXNN, Nibbles.mk.injEq]
  refine ⟨?_, ?_, ?_, ?_⟩ <;>
  · apply BitVec.eq_of_toNat_eq
    simp only [toNat_field, toNat_append]
    omega

/-- A word of format XYs, or XYN, splits into its four nibbles. -/
theorem splitWord_patternXY (op : Nibble) (x y : Reg) (s : Nibble) :
    splitWord (op ++ regNibble x ++ regNibble y ++ s) = formatXY op x y s :=
  splitWord_joinNibbles (formatXY op x y s)

@[simp] theorem regOf_regNibble (r : Reg) : regOf (regNibble r) = r := rfl

@[simp] theorem regNibble_regOf (k : Nibble) : regNibble (regOf k) = k := rfl

/-- X of a format XNN word. -/
@[simp] theorem formatXNN_x (op : Nibble) (x : Reg) (nn : Byte) : (formatXNN op x nn).x = x := rfl

/-- NN of a format XNN word. -/
@[simp] theorem formatXNN_nn (op : Nibble) (x : Reg) (nn : Byte) : (formatXNN op x nn).nn = nn := by
  have := nn.isLt
  apply BitVec.eq_of_toNat_eq
  simp only [formatXNN, Nibbles.nn, toNat_field, toNat_append]
  omega

@[simp] theorem formatXY_x (op : Nibble) (x y : Reg) (s : Nibble) : (formatXY op x y s).x = x := rfl

@[simp] theorem formatXY_y (op : Nibble) (x y : Reg) (s : Nibble) : (formatXY op x y s).y = y := rfl

/-- N of a format XYN word. -/
@[simp] theorem formatXY_rows (op : Nibble) (x y : Reg) (s : Nibble) : (formatXY op x y s).rows = s.toNat := rfl

/-- NNN of a format A word, when the address fits. -/
theorem formatA_addr (op : Nibble) (addr : Word) (h : addr.toNat < 4096) : (formatA op addr).addr = addr := by
  apply BitVec.eq_of_toNat_eq
  simp only [formatA, Nibbles.addr, toNat_field, toNat_append, BitVec.toNat_setWidth]
  omega

/-- A 12-bit address, zero-extended, fits. -/
theorem toNat_zext_addr (nnn : BitVec 12) : (nnn.setWidth 16 : Word).toNat = nnn.toNat := by
  have := nnn.isLt
  rw [BitVec.toNat_setWidth]; omega

/-- The word of an instruction's encoding splits into its nibbles. -/
@[simp] theorem splitWord_encode (i : Instr) : splitWord (encode i) = i.nibbles := splitWord_joinNibbles _

/-- Two words with the same nibbles are the same word. -/
theorem splitWord_injective {v w : Word} (h : splitWord v = splitWord w) : v = w := by
  rw [← joinNibbles_splitWord v, h, joinNibbles_splitWord]

/-- Decoding a word of format A. -/
theorem decode_patternA (op : Nibble) (nnn : BitVec 12) :
    decode (op ++ nnn) = dispatch (formatA op (nnn.setWidth 16)) := by
  rw [decode, splitWord_patternA]

/-- Decoding a word of format XNN, or Xss. -/
theorem decode_patternXNN (op : Nibble) (x : Reg) (nn : Byte) :
    decode (op ++ regNibble x ++ nn) = dispatch (formatXNN op x nn) := by
  rw [decode, splitWord_patternXNN]

/-- Decoding a word of format XYs, or XYN. -/
theorem decode_patternXY (op : Nibble) (x y : Reg) (s : Nibble) :
    decode (op ++ regNibble x ++ regNibble y ++ s) = dispatch (formatXY op x y s) := by
  rw [decode, splitWord_patternXY]

/-- NNN of a format A word is its zero-extension. -/
theorem formatA_zext_addr (op : Nibble) (nnn : BitVec 12) :
    (formatA op (nnn.setWidth 16)).addr = nnn.setWidth 16 :=
  formatA_addr _ _ (by rw [toNat_zext_addr]; exact nnn.isLt)

/-- The word of an instruction of format A. -/
theorem encode_patternA {i : Instr} (op : Nibble) (nnn : BitVec 12) (h : i.nibbles = formatA op (nnn.setWidth 16)) :
    encode i = op ++ nnn := by
  apply splitWord_injective
  rw [splitWord_encode, splitWord_patternA, h]

/-- The word of an instruction of format XNN, or Xss. -/
theorem encode_patternXNN {i : Instr} (op : Nibble) (x : Reg) (nn : Byte) (h : i.nibbles = formatXNN op x nn) :
    encode i = op ++ regNibble x ++ nn := by
  apply splitWord_injective
  rw [splitWord_encode, splitWord_patternXNN, h]

/-- Decoding the word of an instruction dispatches its nibbles. -/
theorem decode_encode (i : Instr) : decode (encode i) = dispatch i.nibbles := by
  rw [decode, splitWord_encode]

/-- The address of any nibbles fits 12 bits. -/
theorem Nibbles.addr_lt (f : Nibbles) : f.addr.toNat < 4096 := by
  obtain ⟨a, b, c, d⟩ := f
  have := b.isLt; have := c.isLt; have := d.isLt
  simp only [Nibbles.addr, toNat_append, BitVec.toNat_setWidth]; omega

/-- Format A puts an address read from nibbles back in its place. -/
theorem formatA_of_addr (f : Nibbles) : formatA f.n0 f.addr = f := by
  obtain ⟨a, b, c, d⟩ := f
  have := b.isLt; have := c.isLt; have := d.isLt
  simp only [formatA, Nibbles.addr, Nibbles.mk.injEq, true_and]
  refine ⟨?_, ?_, ?_⟩ <;>
  · apply BitVec.eq_of_toNat_eq
    simp only [toNat_field, toNat_append, BitVec.toNat_setWidth]
    omega

/-- Format XNN puts X and NN read from nibbles back in their places. -/
theorem formatXNN_of_fields (f : Nibbles) : formatXNN f.n0 f.x f.nn = f := by
  obtain ⟨a, b, c, d⟩ := f
  have := c.isLt; have := d.isLt
  simp only [formatXNN, Nibbles.x, Nibbles.nn, regNibble_regOf, Nibbles.mk.injEq, true_and]
  refine ⟨?_, ?_⟩ <;>
  · apply BitVec.eq_of_toNat_eq
    simp only [toNat_field, toNat_append]
    omega

/-- Format XYs puts X and Y read from nibbles back in their places. -/
theorem formatXY_of_fields (f : Nibbles) : formatXY f.n0 f.x f.y f.n3 = f := rfl

end Sys2Proof
end

