-- ==== Sys2Proof/Laws/Display.lean ====
section
/-! SUPPORT. What a draw does, said once: each pixel under a set sprite bit is flipped, every other pixel is kept, and the
draw collides exactly when a pixel under a set sprite bit was set (44_random_display.md R193). -/

namespace Sys2Proof.Machine

/-- The pixels of a blank framebuffer. -/
@[simp] theorem Framebuffer.pixel_blank (x y : Nat) : Framebuffer.blank.pixel x y = false := by
  simp [Framebuffer.pixel, Framebuffer.blank]

/-- A pixel after a flip. -/
theorem Framebuffer.pixel_flip (f : Framebuffer) (x y a b : Nat) :
    (f.flip x y).pixel a b = if a % 64 = x % 64 ∧ b % 32 = y % 32 then !f.pixel a b else f.pixel a b := by
  simp only [Framebuffer.pixel, Framebuffer.flip, fbWidth, fbHeight, Vector.getElem_set]
  by_cases hb : y % 32 = b % 32
  · by_cases ha : x % 64 = a % 64
    · simp [hb, ha]
    · have ha' : ¬ a % 64 = x % 64 := fun e => ha e.symm
      simp [hb, ha, ha']
  · have hb' : ¬ b % 32 = y % 32 := fun e => hb e.symm
    simp [hb, hb']

/-- The sprite row `row` drawn at column `x` covers column `a` with a set bit. -/
def rowLit (x : Nat) (row : Byte) (a : Nat) : Bool :=
  (List.range 8).any fun c => a % 64 = (x + c) % 64 && row.getLsbD (7 - c)

/-- The sprite drawn at `(x, y)` covers the pixel `(a, b)` with a set bit. -/
def lit (x : Nat) : Nat → List Byte → Nat → Nat → Bool
  | _, [], _, _ => false
  | y, row :: rows, a, b => (b % 32 = y % 32 && rowLit x row a) || lit x (y + 1) rows a b

/-- A set bit of a sprite covers its wrapped pixel, and only such pixels are covered. -/
theorem lit_iff (x y : Nat) (rows : List Byte) (a b : Nat) :
    lit x y rows a b = true ↔
      ∃ c r, c < 8 ∧ r < rows.length ∧ (rows.getD r 0).getLsbD (7 - c) = true ∧ a % 64 = (x + c) % 64 ∧
        b % 32 = (y + r) % 32 := by
  induction rows generalizing y with
  | nil => simp [lit]
  | cons row rows ih =>
    simp only [lit, Bool.or_eq_true, Bool.and_eq_true, decide_eq_true_eq, ih (y + 1), rowLit, List.any_eq_true,
      List.mem_range, List.length_cons]
    constructor
    · rintro (⟨hb, c, hc, ha, hbit⟩ | ⟨c, r, hc, hr, hbit, ha, hb⟩)
      · exact ⟨c, 0, hc, by omega, by simpa using hbit, ha, by simpa using hb⟩
      · exact ⟨c, r + 1, hc, by omega, by simpa using hbit, ha, by rw [hb]; congr 1; omega⟩
    · rintro ⟨c, r, hc, hr, hbit, ha, hb⟩
      cases r with
      | zero => exact .inl ⟨by simpa using hb, c, hc, ha, by simpa using hbit⟩
      | succ r => exact .inr ⟨c, r, hc, by omega, by simpa using hbit, ha, by rw [hb]; congr 1; omega⟩

/-- Which columns below `n` a row covers. -/
theorem plotRow_prefix (x y : Nat) (row : Byte) (acc : Raster) (n : Nat) (hn : n ≤ 8) :
    let r := (List.range n).foldl (fun acc c => if row.getLsbD (7 - c) then plot (x + c) y acc else acc) acc
    (∀ a b, r.1.pixel a b = (acc.1.pixel a b ^^ (b % 32 = y % 32 &&
      (List.range n).any fun c => a % 64 = (x + c) % 64 && row.getLsbD (7 - c)))) ∧
    (r.2 = true ↔ acc.2 = true ∨ ∃ c, c < n ∧ row.getLsbD (7 - c) = true ∧ acc.1.pixel (x + c) y = true) := by
  induction n with
  | zero => simp
  | succ n ih =>
    obtain ⟨ih1, ih2⟩ := ih (by omega)
    rw [List.range_succ, List.foldl_append, List.foldl_cons, List.foldl_nil]
    generalize hr : (List.range n).foldl (fun acc c => if row.getLsbD (7 - c) then plot (x + c) y acc else acc) acc = r at *
    have fresh : ∀ a, a % 64 = (x + n) % 64 →
        ((List.range n).any fun c => a % 64 = (x + c) % 64 && row.getLsbD (7 - c)) = false := by
      intro a ha
      rw [List.any_eq_false]
      intro c hc
      have := List.mem_range.mp hc
      have : ¬ a % 64 = (x + c) % 64 := by omega
      simp [this]
    by_cases hbit : row.getLsbD (7 - n) = true
    · simp only [hbit, if_true, plot]
      refine ⟨fun a b => ?_, ?_⟩
      · rw [Framebuffer.pixel_flip, ih1, List.any_append]
        by_cases ha : a % 64 = (x + n) % 64
        · by_cases hb : b % 32 = y % 32
          · rw [fresh a ha]; simp [ha, hb, hbit]
          · simp [hb]
        · simp [ha]
      · rw [Bool.or_eq_true, ih2, ih1, fresh _ rfl]
        simp only [Bool.and_false, Bool.xor_false]
        constructor
        · rintro ((h | ⟨c, hc, h1, h2⟩) | h)
          · exact .inl h
          · exact .inr ⟨c, by omega, h1, h2⟩
          · exact .inr ⟨n, by omega, hbit, h⟩
        · rintro (h | ⟨c, hc, h1, h2⟩)
          · exact .inl (.inl h)
          · rcases Nat.lt_succ_iff_lt_or_eq.mp hc with hc | rfl
            · exact .inl (.inr ⟨c, hc, h1, h2⟩)
            · exact .inr h2
    · have hbit' : row.getLsbD (7 - n) = false := by simpa using hbit
      simp only [hbit', Bool.false_eq_true, if_false]
      refine ⟨fun a b => ?_, ?_⟩
      · rw [ih1, List.any_append]; simp [hbit']
      · rw [ih2]
        constructor
        · rintro (h | ⟨c, hc, h1, h2⟩)
          · exact .inl h
          · exact .inr ⟨c, by omega, h1, h2⟩
        · rintro (h | ⟨c, hc, h1, h2⟩)
          · exact .inl h
          · rcases Nat.lt_succ_iff_lt_or_eq.mp hc with hc | rfl
            · exact .inr ⟨c, hc, h1, h2⟩
            · exact absurd h1 hbit

/-- The pixels after one sprite row. -/
theorem plotRow_pixel (x y : Nat) (row : Byte) (acc : Raster) (a b : Nat) :
    (plotRow x y row acc).1.pixel a b = (acc.1.pixel a b ^^ (b % 32 = y % 32 && rowLit x row a)) :=
  (plotRow_prefix x y row acc 8 (by omega)).1 a b

/-- Whether one sprite row collides. -/
theorem plotRow_collision (x y : Nat) (row : Byte) (acc : Raster) :
    (plotRow x y row acc).2 = true ↔
      acc.2 = true ∨ ∃ c, c < 8 ∧ row.getLsbD (7 - c) = true ∧ acc.1.pixel (x + c) y = true :=
  (plotRow_prefix x y row acc 8 (by omega)).2

/-- Rows below the one at `y` do not cover its pixels, in a sprite of at most 32 rows. -/
theorem lit_below (x y : Nat) (rows : List Byte) (a b : Nat) (h : rows.length < 32) (hb : b % 32 = y % 32) :
    lit x (y + 1) rows a b = false := by
  rw [Bool.eq_false_iff]
  intro hl
  obtain ⟨c, r, hc, hr, hbit, ha, hb'⟩ := (lit_iff x (y + 1) rows a b).mp hl
  omega

theorem plotRows_pixel (x y : Nat) (rows : List Byte) (acc : Raster) (a b : Nat) (h : rows.length ≤ 32) :
    (plotRows x y rows acc).1.pixel a b = (acc.1.pixel a b ^^ lit x y rows a b) := by
  induction rows generalizing y acc with
  | nil => simp [plotRows, lit]
  | cons row rows ih =>
    simp only [List.length_cons] at h
    rw [plotRows, ih (y + 1) _ (by omega), plotRow_pixel, lit]
    by_cases hb : b % 32 = y % 32
    · simp [hb, lit_below x y rows a b (by omega) hb]
    · simp [hb]

theorem plotRows_collision (x y : Nat) (rows : List Byte) (acc : Raster) (h : rows.length ≤ 32) :
    (plotRows x y rows acc).2 = true ↔
      acc.2 = true ∨ ∃ c r, c < 8 ∧ r < rows.length ∧ (rows.getD r 0).getLsbD (7 - c) = true ∧
        acc.1.pixel (x + c) (y + r) = true := by
  induction rows generalizing y acc with
  | nil => simp [plotRows]
  | cons row rows ih =>
    simp only [List.length_cons] at h
    rw [plotRows, ih (y + 1) _ (by omega), plotRow_collision]
    have other : ∀ c r, r < rows.length →
        (plotRow x y row acc).1.pixel (x + c) (y + 1 + r) = acc.1.pixel (x + c) (y + 1 + r) := by
      intro c r hr
      have : ¬ (y + 1 + r) % 32 = y % 32 := by omega
      rw [plotRow_pixel]; simp [this]
    constructor
    · rintro ((h1 | ⟨c, hc, hbit, hp⟩) | ⟨c, r, hc, hr, hbit, hp⟩)
      · exact .inl h1
      · exact .inr ⟨c, 0, hc, by simp, by simpa using hbit, hp⟩
      · rw [other c r hr] at hp
        exact .inr ⟨c, r + 1, hc, by simpa using hr, by simpa using hbit, by rw [← hp]; congr 1; omega⟩
    · rintro (h1 | ⟨c, r, hc, hr, hbit, hp⟩)
      · exact .inl (.inl h1)
      · cases r with
        | zero => exact .inl (.inr ⟨c, hc, by simpa using hbit, hp⟩)
        | succ r =>
          have hr' : r < rows.length := by simpa using hr
          refine .inr ⟨c, r, hc, hr', by simpa using hbit, ?_⟩
          rw [other c r hr', ← hp]; congr 1; omega

/-- The pixels after a draw: flipped under the set bits, kept elsewhere. -/
theorem Framebuffer.draw_pixel (f : Framebuffer) (x y : Nat) (rows : List Byte) (a b : Nat) (h : rows.length ≤ 32) :
    (f.draw x y rows).1.pixel a b = (f.pixel a b ^^ lit x y rows a b) :=
  plotRows_pixel x y rows (f, false) a b h

/-- A draw collides exactly when a pixel under a set bit was set. -/
theorem Framebuffer.draw_collision (f : Framebuffer) (x y : Nat) (rows : List Byte) (h : rows.length ≤ 32) :
    (f.draw x y rows).2 = true ↔ ∃ c r, c < 8 ∧ r < rows.length ∧ (rows.getD r 0).getLsbD (7 - c) = true ∧
      f.pixel (x + c) (y + r) = true := by
  refine (plotRows_collision x y rows (f, false) h).trans ?_
  simp only [Bool.false_eq_true, false_or]

/-- Framebuffers with the same pixels are the same. -/
theorem Framebuffer.ext_pixel (f g : Framebuffer) (h : ∀ a b, f.pixel a b = g.pixel a b) : f = g := by
  apply Vector.ext; intro y hy
  apply Vector.ext; intro x hx
  have := h x y
  simpa [Framebuffer.pixel, fbWidth, fbHeight, Nat.mod_eq_of_lt hx, Nat.mod_eq_of_lt hy] using this

end Sys2Proof.Machine
end

