-- ==== Sys2Proof/Laws/State.lean ====
section
/-! SUPPORT. One lemma per field per update of the state, true by rfl. -/

namespace Sys2Proof.Machine

section setV
variable (s : State) (x : Reg) (b : Byte)
@[simp] theorem State.setV_v : (s.setV x b).v = s.v.set x b := rfl
@[simp] theorem State.setV_i : (s.setV x b).i = s.i := rfl
@[simp] theorem State.setV_pc : (s.setV x b).pc = s.pc := rfl
@[simp] theorem State.setV_stack : (s.setV x b).stack = s.stack := rfl
@[simp] theorem State.setV_sp : (s.setV x b).sp = s.sp := rfl
@[simp] theorem State.setV_dt : (s.setV x b).dt = s.dt := rfl
@[simp] theorem State.setV_st : (s.setV x b).st = s.st := rfl
@[simp] theorem State.setV_mem : (s.setV x b).mem = s.mem := rfl
@[simp] theorem State.setV_fb : (s.setV x b).fb = s.fb := rfl
@[simp] theorem State.setV_status : (s.setV x b).status = s.status := rfl
@[simp] theorem State.setV_faultCause : (s.setV x b).faultCause = s.faultCause := rfl
@[simp] theorem State.setV_faultInfo : (s.setV x b).faultInfo = s.faultInfo := rfl
@[simp] theorem State.setV_waitReg : (s.setV x b).waitReg = s.waitReg := rfl
@[simp] theorem State.setV_draws : (s.setV x b).draws = s.draws := rfl
@[simp] theorem State.setV_schedule : (s.setV x b).schedule = s.schedule := rfl
@[simp] theorem State.setV_rounds : (s.setV x b).rounds = s.rounds := rfl
@[simp] theorem State.setV_fetch : (s.setV x b).fetch = s.fetch := rfl
end setV

section setI
variable (s : State) (w : Word)
@[simp] theorem State.setI_v : (s.setI w).v = s.v := rfl
@[simp] theorem State.setI_i : (s.setI w).i = w := rfl
@[simp] theorem State.setI_pc : (s.setI w).pc = s.pc := rfl
@[simp] theorem State.setI_stack : (s.setI w).stack = s.stack := rfl
@[simp] theorem State.setI_sp : (s.setI w).sp = s.sp := rfl
@[simp] theorem State.setI_dt : (s.setI w).dt = s.dt := rfl
@[simp] theorem State.setI_st : (s.setI w).st = s.st := rfl
@[simp] theorem State.setI_mem : (s.setI w).mem = s.mem := rfl
@[simp] theorem State.setI_fb : (s.setI w).fb = s.fb := rfl
@[simp] theorem State.setI_status : (s.setI w).status = s.status := rfl
@[simp] theorem State.setI_faultCause : (s.setI w).faultCause = s.faultCause := rfl
@[simp] theorem State.setI_faultInfo : (s.setI w).faultInfo = s.faultInfo := rfl
@[simp] theorem State.setI_waitReg : (s.setI w).waitReg = s.waitReg := rfl
@[simp] theorem State.setI_draws : (s.setI w).draws = s.draws := rfl
@[simp] theorem State.setI_schedule : (s.setI w).schedule = s.schedule := rfl
@[simp] theorem State.setI_rounds : (s.setI w).rounds = s.rounds := rfl
@[simp] theorem State.setI_getV (r : Reg) : (s.setI w).getV r = s.getV r := rfl
@[simp] theorem State.setI_fetch : (s.setI w).fetch = s.fetch := rfl
end setI

section setPc
variable (s : State) (w : Word)
@[simp] theorem State.setPc_v : (s.setPc w).v = s.v := rfl
@[simp] theorem State.setPc_i : (s.setPc w).i = s.i := rfl
@[simp] theorem State.setPc_pc : (s.setPc w).pc = w := rfl
@[simp] theorem State.setPc_stack : (s.setPc w).stack = s.stack := rfl
@[simp] theorem State.setPc_sp : (s.setPc w).sp = s.sp := rfl
@[simp] theorem State.setPc_dt : (s.setPc w).dt = s.dt := rfl
@[simp] theorem State.setPc_st : (s.setPc w).st = s.st := rfl
@[simp] theorem State.setPc_mem : (s.setPc w).mem = s.mem := rfl
@[simp] theorem State.setPc_fb : (s.setPc w).fb = s.fb := rfl
@[simp] theorem State.setPc_status : (s.setPc w).status = s.status := rfl
@[simp] theorem State.setPc_faultCause : (s.setPc w).faultCause = s.faultCause := rfl
@[simp] theorem State.setPc_faultInfo : (s.setPc w).faultInfo = s.faultInfo := rfl
@[simp] theorem State.setPc_waitReg : (s.setPc w).waitReg = s.waitReg := rfl
@[simp] theorem State.setPc_draws : (s.setPc w).draws = s.draws := rfl
@[simp] theorem State.setPc_schedule : (s.setPc w).schedule = s.schedule := rfl
@[simp] theorem State.setPc_rounds : (s.setPc w).rounds = s.rounds := rfl
@[simp] theorem State.setPc_getV (r : Reg) : (s.setPc w).getV r = s.getV r := rfl
end setPc

section advance
variable (s : State)
@[simp] theorem State.advance_v : s.advance.v = s.v := rfl
@[simp] theorem State.advance_i : s.advance.i = s.i := rfl
@[simp] theorem State.advance_pc : s.advance.pc = s.pc + 2 := rfl
@[simp] theorem State.advance_stack : s.advance.stack = s.stack := rfl
@[simp] theorem State.advance_sp : s.advance.sp = s.sp := rfl
@[simp] theorem State.advance_dt : s.advance.dt = s.dt := rfl
@[simp] theorem State.advance_st : s.advance.st = s.st := rfl
@[simp] theorem State.advance_mem : s.advance.mem = s.mem := rfl
@[simp] theorem State.advance_fb : s.advance.fb = s.fb := rfl
@[simp] theorem State.advance_status : s.advance.status = s.status := rfl
@[simp] theorem State.advance_faultCause : s.advance.faultCause = s.faultCause := rfl
@[simp] theorem State.advance_faultInfo : s.advance.faultInfo = s.faultInfo := rfl
@[simp] theorem State.advance_waitReg : s.advance.waitReg = s.waitReg := rfl
@[simp] theorem State.advance_draws : s.advance.draws = s.draws := rfl
@[simp] theorem State.advance_schedule : s.advance.schedule = s.schedule := rfl
@[simp] theorem State.advance_rounds : s.advance.rounds = s.rounds := rfl
@[simp] theorem State.advance_getV (r : Reg) : s.advance.getV r = s.getV r := rfl
end advance

section skipIf
variable (s : State) (p : Bool)
@[simp] theorem State.skipIf_v : (s.skipIf p).v = s.v := rfl
@[simp] theorem State.skipIf_i : (s.skipIf p).i = s.i := rfl
@[simp] theorem State.skipIf_pc : (s.skipIf p).pc = if p then s.pc + 4 else s.pc + 2 := rfl
@[simp] theorem State.skipIf_stack : (s.skipIf p).stack = s.stack := rfl
@[simp] theorem State.skipIf_sp : (s.skipIf p).sp = s.sp := rfl
@[simp] theorem State.skipIf_dt : (s.skipIf p).dt = s.dt := rfl
@[simp] theorem State.skipIf_st : (s.skipIf p).st = s.st := rfl
@[simp] theorem State.skipIf_mem : (s.skipIf p).mem = s.mem := rfl
@[simp] theorem State.skipIf_fb : (s.skipIf p).fb = s.fb := rfl
@[simp] theorem State.skipIf_status : (s.skipIf p).status = s.status := rfl
@[simp] theorem State.skipIf_faultCause : (s.skipIf p).faultCause = s.faultCause := rfl
@[simp] theorem State.skipIf_faultInfo : (s.skipIf p).faultInfo = s.faultInfo := rfl
@[simp] theorem State.skipIf_waitReg : (s.skipIf p).waitReg = s.waitReg := rfl
@[simp] theorem State.skipIf_draws : (s.skipIf p).draws = s.draws := rfl
@[simp] theorem State.skipIf_schedule : (s.skipIf p).schedule = s.schedule := rfl
@[simp] theorem State.skipIf_rounds : (s.skipIf p).rounds = s.rounds := rfl
@[simp] theorem State.skipIf_getV (r : Reg) : (s.skipIf p).getV r = s.getV r := rfl
end skipIf

section setDt
variable (s : State) (b : Byte)
@[simp] theorem State.setDt_v : (s.setDt b).v = s.v := rfl
@[simp] theorem State.setDt_i : (s.setDt b).i = s.i := rfl
@[simp] theorem State.setDt_pc : (s.setDt b).pc = s.pc := rfl
@[simp] theorem State.setDt_stack : (s.setDt b).stack = s.stack := rfl
@[simp] theorem State.setDt_sp : (s.setDt b).sp = s.sp := rfl
@[simp] theorem State.setDt_dt : (s.setDt b).dt = b := rfl
@[simp] theorem State.setDt_st : (s.setDt b).st = s.st := rfl
@[simp] theorem State.setDt_mem : (s.setDt b).mem = s.mem := rfl
@[simp] theorem State.setDt_fb : (s.setDt b).fb = s.fb := rfl
@[simp] theorem State.setDt_status : (s.setDt b).status = s.status := rfl
@[simp] theorem State.setDt_faultCause : (s.setDt b).faultCause = s.faultCause := rfl
@[simp] theorem State.setDt_faultInfo : (s.setDt b).faultInfo = s.faultInfo := rfl
@[simp] theorem State.setDt_waitReg : (s.setDt b).waitReg = s.waitReg := rfl
@[simp] theorem State.setDt_draws : (s.setDt b).draws = s.draws := rfl
@[simp] theorem State.setDt_schedule : (s.setDt b).schedule = s.schedule := rfl
@[simp] theorem State.setDt_rounds : (s.setDt b).rounds = s.rounds := rfl
@[simp] theorem State.setDt_getV (r : Reg) : (s.setDt b).getV r = s.getV r := rfl
@[simp] theorem State.setDt_fetch : (s.setDt b).fetch = s.fetch := rfl
end setDt

section setSt
variable (s : State) (b : Byte)
@[simp] theorem State.setSt_v : (s.setSt b).v = s.v := rfl
@[simp] theorem State.setSt_i : (s.setSt b).i = s.i := rfl
@[simp] theorem State.setSt_pc : (s.setSt b).pc = s.pc := rfl
@[simp] theorem State.setSt_stack : (s.setSt b).stack = s.stack := rfl
@[simp] theorem State.setSt_sp : (s.setSt b).sp = s.sp := rfl
@[simp] theorem State.setSt_dt : (s.setSt b).dt = s.dt := rfl
@[simp] theorem State.setSt_st : (s.setSt b).st = b := rfl
@[simp] theorem State.setSt_mem : (s.setSt b).mem = s.mem := rfl
@[simp] theorem State.setSt_fb : (s.setSt b).fb = s.fb := rfl
@[simp] theorem State.setSt_status : (s.setSt b).status = s.status := rfl
@[simp] theorem State.setSt_faultCause : (s.setSt b).faultCause = s.faultCause := rfl
@[simp] theorem State.setSt_faultInfo : (s.setSt b).faultInfo = s.faultInfo := rfl
@[simp] theorem State.setSt_waitReg : (s.setSt b).waitReg = s.waitReg := rfl
@[simp] theorem State.setSt_draws : (s.setSt b).draws = s.draws := rfl
@[simp] theorem State.setSt_schedule : (s.setSt b).schedule = s.schedule := rfl
@[simp] theorem State.setSt_rounds : (s.setSt b).rounds = s.rounds := rfl
@[simp] theorem State.setSt_getV (r : Reg) : (s.setSt b).getV r = s.getV r := rfl
@[simp] theorem State.setSt_fetch : (s.setSt b).fetch = s.fetch := rfl
end setSt

section setMem
variable (s : State) (m : Memory)
@[simp] theorem State.setMem_v : (s.setMem m).v = s.v := rfl
@[simp] theorem State.setMem_i : (s.setMem m).i = s.i := rfl
@[simp] theorem State.setMem_pc : (s.setMem m).pc = s.pc := rfl
@[simp] theorem State.setMem_stack : (s.setMem m).stack = s.stack := rfl
@[simp] theorem State.setMem_sp : (s.setMem m).sp = s.sp := rfl
@[simp] theorem State.setMem_dt : (s.setMem m).dt = s.dt := rfl
@[simp] theorem State.setMem_st : (s.setMem m).st = s.st := rfl
@[simp] theorem State.setMem_mem : (s.setMem m).mem = m := rfl
@[simp] theorem State.setMem_fb : (s.setMem m).fb = s.fb := rfl
@[simp] theorem State.setMem_status : (s.setMem m).status = s.status := rfl
@[simp] theorem State.setMem_faultCause : (s.setMem m).faultCause = s.faultCause := rfl
@[simp] theorem State.setMem_faultInfo : (s.setMem m).faultInfo = s.faultInfo := rfl
@[simp] theorem State.setMem_waitReg : (s.setMem m).waitReg = s.waitReg := rfl
@[simp] theorem State.setMem_draws : (s.setMem m).draws = s.draws := rfl
@[simp] theorem State.setMem_schedule : (s.setMem m).schedule = s.schedule := rfl
@[simp] theorem State.setMem_rounds : (s.setMem m).rounds = s.rounds := rfl
@[simp] theorem State.setMem_getV (r : Reg) : (s.setMem m).getV r = s.getV r := rfl
end setMem

section setFb
variable (s : State) (f : Framebuffer)
@[simp] theorem State.setFb_v : (s.setFb f).v = s.v := rfl
@[simp] theorem State.setFb_i : (s.setFb f).i = s.i := rfl
@[simp] theorem State.setFb_pc : (s.setFb f).pc = s.pc := rfl
@[simp] theorem State.setFb_stack : (s.setFb f).stack = s.stack := rfl
@[simp] theorem State.setFb_sp : (s.setFb f).sp = s.sp := rfl
@[simp] theorem State.setFb_dt : (s.setFb f).dt = s.dt := rfl
@[simp] theorem State.setFb_st : (s.setFb f).st = s.st := rfl
@[simp] theorem State.setFb_mem : (s.setFb f).mem = s.mem := rfl
@[simp] theorem State.setFb_fb : (s.setFb f).fb = f := rfl
@[simp] theorem State.setFb_status : (s.setFb f).status = s.status := rfl
@[simp] theorem State.setFb_faultCause : (s.setFb f).faultCause = s.faultCause := rfl
@[simp] theorem State.setFb_faultInfo : (s.setFb f).faultInfo = s.faultInfo := rfl
@[simp] theorem State.setFb_waitReg : (s.setFb f).waitReg = s.waitReg := rfl
@[simp] theorem State.setFb_draws : (s.setFb f).draws = s.draws := rfl
@[simp] theorem State.setFb_schedule : (s.setFb f).schedule = s.schedule := rfl
@[simp] theorem State.setFb_rounds : (s.setFb f).rounds = s.rounds := rfl
@[simp] theorem State.setFb_getV (r : Reg) : (s.setFb f).getV r = s.getV r := rfl
@[simp] theorem State.setFb_fetch : (s.setFb f).fetch = s.fetch := rfl
end setFb

section setStatus
variable (s : State) (t : Status)
@[simp] theorem State.setStatus_v : (s.setStatus t).v = s.v := rfl
@[simp] theorem State.setStatus_i : (s.setStatus t).i = s.i := rfl
@[simp] theorem State.setStatus_pc : (s.setStatus t).pc = s.pc := rfl
@[simp] theorem State.setStatus_stack : (s.setStatus t).stack = s.stack := rfl
@[simp] theorem State.setStatus_sp : (s.setStatus t).sp = s.sp := rfl
@[simp] theorem State.setStatus_dt : (s.setStatus t).dt = s.dt := rfl
@[simp] theorem State.setStatus_st : (s.setStatus t).st = s.st := rfl
@[simp] theorem State.setStatus_mem : (s.setStatus t).mem = s.mem := rfl
@[simp] theorem State.setStatus_fb : (s.setStatus t).fb = s.fb := rfl
@[simp] theorem State.setStatus_status : (s.setStatus t).status = t := rfl
@[simp] theorem State.setStatus_faultCause : (s.setStatus t).faultCause = s.faultCause := rfl
@[simp] theorem State.setStatus_faultInfo : (s.setStatus t).faultInfo = s.faultInfo := rfl
@[simp] theorem State.setStatus_waitReg : (s.setStatus t).waitReg = s.waitReg := rfl
@[simp] theorem State.setStatus_draws : (s.setStatus t).draws = s.draws := rfl
@[simp] theorem State.setStatus_schedule : (s.setStatus t).schedule = s.schedule := rfl
@[simp] theorem State.setStatus_rounds : (s.setStatus t).rounds = s.rounds := rfl
@[simp] theorem State.setStatus_getV (r : Reg) : (s.setStatus t).getV r = s.getV r := rfl
@[simp] theorem State.setStatus_fetch : (s.setStatus t).fetch = s.fetch := rfl
end setStatus

section suspend
variable (s : State) (x : Reg)
@[simp] theorem State.suspend_v : (s.suspend x).v = s.v := rfl
@[simp] theorem State.suspend_i : (s.suspend x).i = s.i := rfl
@[simp] theorem State.suspend_pc : (s.suspend x).pc = s.pc := rfl
@[simp] theorem State.suspend_stack : (s.suspend x).stack = s.stack := rfl
@[simp] theorem State.suspend_sp : (s.suspend x).sp = s.sp := rfl
@[simp] theorem State.suspend_dt : (s.suspend x).dt = s.dt := rfl
@[simp] theorem State.suspend_st : (s.suspend x).st = s.st := rfl
@[simp] theorem State.suspend_mem : (s.suspend x).mem = s.mem := rfl
@[simp] theorem State.suspend_fb : (s.suspend x).fb = s.fb := rfl
@[simp] theorem State.suspend_status : (s.suspend x).status = .waitKey := rfl
@[simp] theorem State.suspend_faultCause : (s.suspend x).faultCause = s.faultCause := rfl
@[simp] theorem State.suspend_faultInfo : (s.suspend x).faultInfo = s.faultInfo := rfl
@[simp] theorem State.suspend_waitReg : (s.suspend x).waitReg = x := rfl
@[simp] theorem State.suspend_draws : (s.suspend x).draws = s.draws := rfl
@[simp] theorem State.suspend_schedule : (s.suspend x).schedule = s.schedule := rfl
@[simp] theorem State.suspend_rounds : (s.suspend x).rounds = s.rounds := rfl
@[simp] theorem State.suspend_getV (r : Reg) : (s.suspend x).getV r = s.getV r := rfl
@[simp] theorem State.suspend_fetch : (s.suspend x).fetch = s.fetch := rfl
end suspend

section countDraw
variable (s : State)
@[simp] theorem State.countDraw_v : s.countDraw.v = s.v := rfl
@[simp] theorem State.countDraw_i : s.countDraw.i = s.i := rfl
@[simp] theorem State.countDraw_pc : s.countDraw.pc = s.pc := rfl
@[simp] theorem State.countDraw_stack : s.countDraw.stack = s.stack := rfl
@[simp] theorem State.countDraw_sp : s.countDraw.sp = s.sp := rfl
@[simp] theorem State.countDraw_dt : s.countDraw.dt = s.dt := rfl
@[simp] theorem State.countDraw_st : s.countDraw.st = s.st := rfl
@[simp] theorem State.countDraw_mem : s.countDraw.mem = s.mem := rfl
@[simp] theorem State.countDraw_fb : s.countDraw.fb = s.fb := rfl
@[simp] theorem State.countDraw_status : s.countDraw.status = s.status := rfl
@[simp] theorem State.countDraw_faultCause : s.countDraw.faultCause = s.faultCause := rfl
@[simp] theorem State.countDraw_faultInfo : s.countDraw.faultInfo = s.faultInfo := rfl
@[simp] theorem State.countDraw_waitReg : s.countDraw.waitReg = s.waitReg := rfl
@[simp] theorem State.countDraw_draws : s.countDraw.draws = s.draws + 1 := rfl
@[simp] theorem State.countDraw_schedule : s.countDraw.schedule = s.schedule := rfl
@[simp] theorem State.countDraw_rounds : s.countDraw.rounds = s.rounds := rfl
@[simp] theorem State.countDraw_getV (r : Reg) : s.countDraw.getV r = s.getV r := rfl
@[simp] theorem State.countDraw_fetch : s.countDraw.fetch = s.fetch := rfl
end countDraw

section setOrder
variable (s : State) (ms : List Move) (r : Nat)
@[simp] theorem State.setOrder_v : (s.setOrder ms r).v = s.v := rfl
@[simp] theorem State.setOrder_i : (s.setOrder ms r).i = s.i := rfl
@[simp] theorem State.setOrder_pc : (s.setOrder ms r).pc = s.pc := rfl
@[simp] theorem State.setOrder_stack : (s.setOrder ms r).stack = s.stack := rfl
@[simp] theorem State.setOrder_sp : (s.setOrder ms r).sp = s.sp := rfl
@[simp] theorem State.setOrder_dt : (s.setOrder ms r).dt = s.dt := rfl
@[simp] theorem State.setOrder_st : (s.setOrder ms r).st = s.st := rfl
@[simp] theorem State.setOrder_mem : (s.setOrder ms r).mem = s.mem := rfl
@[simp] theorem State.setOrder_fb : (s.setOrder ms r).fb = s.fb := rfl
@[simp] theorem State.setOrder_status : (s.setOrder ms r).status = s.status := rfl
@[simp] theorem State.setOrder_faultCause : (s.setOrder ms r).faultCause = s.faultCause := rfl
@[simp] theorem State.setOrder_faultInfo : (s.setOrder ms r).faultInfo = s.faultInfo := rfl
@[simp] theorem State.setOrder_waitReg : (s.setOrder ms r).waitReg = s.waitReg := rfl
@[simp] theorem State.setOrder_draws : (s.setOrder ms r).draws = s.draws := rfl
@[simp] theorem State.setOrder_schedule : (s.setOrder ms r).schedule = ms := rfl
@[simp] theorem State.setOrder_rounds : (s.setOrder ms r).rounds = r := rfl
@[simp] theorem State.setOrder_getV (x : Reg) : (s.setOrder ms r).getV x = s.getV x := rfl
@[simp] theorem State.setOrder_fetch : (s.setOrder ms r).fetch = s.fetch := rfl
end setOrder

section setSchedule
variable (s : State) (ms : List Move)
@[simp] theorem State.setSchedule_v : (s.setSchedule ms).v = s.v := rfl
@[simp] theorem State.setSchedule_i : (s.setSchedule ms).i = s.i := rfl
@[simp] theorem State.setSchedule_pc : (s.setSchedule ms).pc = s.pc := rfl
@[simp] theorem State.setSchedule_stack : (s.setSchedule ms).stack = s.stack := rfl
@[simp] theorem State.setSchedule_sp : (s.setSchedule ms).sp = s.sp := rfl
@[simp] theorem State.setSchedule_dt : (s.setSchedule ms).dt = s.dt := rfl
@[simp] theorem State.setSchedule_st : (s.setSchedule ms).st = s.st := rfl
@[simp] theorem State.setSchedule_mem : (s.setSchedule ms).mem = s.mem := rfl
@[simp] theorem State.setSchedule_fb : (s.setSchedule ms).fb = s.fb := rfl
@[simp] theorem State.setSchedule_status : (s.setSchedule ms).status = s.status := rfl
@[simp] theorem State.setSchedule_faultCause : (s.setSchedule ms).faultCause = s.faultCause := rfl
@[simp] theorem State.setSchedule_faultInfo : (s.setSchedule ms).faultInfo = s.faultInfo := rfl
@[simp] theorem State.setSchedule_waitReg : (s.setSchedule ms).waitReg = s.waitReg := rfl
@[simp] theorem State.setSchedule_draws : (s.setSchedule ms).draws = s.draws := rfl
@[simp] theorem State.setSchedule_schedule : (s.setSchedule ms).schedule = ms := rfl
@[simp] theorem State.setSchedule_rounds : (s.setSchedule ms).rounds = s.rounds := rfl
@[simp] theorem State.setSchedule_getV (r : Reg) : (s.setSchedule ms).getV r = s.getV r := rfl
@[simp] theorem State.setSchedule_fetch : (s.setSchedule ms).fetch = s.fetch := rfl
end setSchedule

section raise
variable (s : State) (c : FaultCause) (w : Word)
@[simp] theorem State.raise_v : (s.raise c w).v = s.v := rfl
@[simp] theorem State.raise_i : (s.raise c w).i = s.i := rfl
@[simp] theorem State.raise_pc : (s.raise c w).pc = s.pc := rfl
@[simp] theorem State.raise_stack : (s.raise c w).stack = s.stack := rfl
@[simp] theorem State.raise_sp : (s.raise c w).sp = s.sp := rfl
@[simp] theorem State.raise_dt : (s.raise c w).dt = s.dt := rfl
@[simp] theorem State.raise_st : (s.raise c w).st = s.st := rfl
@[simp] theorem State.raise_mem : (s.raise c w).mem = s.mem := rfl
@[simp] theorem State.raise_fb : (s.raise c w).fb = s.fb := rfl
@[simp] theorem State.raise_status : (s.raise c w).status = .fault := rfl
@[simp] theorem State.raise_faultCause : (s.raise c w).faultCause = c := rfl
@[simp] theorem State.raise_faultInfo : (s.raise c w).faultInfo = w := rfl
@[simp] theorem State.raise_waitReg : (s.raise c w).waitReg = s.waitReg := rfl
@[simp] theorem State.raise_draws : (s.raise c w).draws = s.draws := rfl
@[simp] theorem State.raise_schedule : (s.raise c w).schedule = s.schedule := rfl
@[simp] theorem State.raise_rounds : (s.raise c w).rounds = s.rounds := rfl
@[simp] theorem State.raise_getV (r : Reg) : (s.raise c w).getV r = s.getV r := rfl
@[simp] theorem State.raise_fetch : (s.raise c w).fetch = s.fetch := rfl
end raise

end Sys2Proof.Machine
end

