-- ==== Sys2Proof/Laws/Memory.lean ====
section
/-! SUPPORT. The laws of memory: a read after a write, and that every memory operation keeps the canonical form. -/

namespace Sys2Proof.Machine

theorem Memory.lookup_insertCell (m : Memory) (a c : Nat) (b : Byte) :
    (m.insertCell a b).lookup c = if c = a then some b else m.lookup c := by
  induction m with
  | nil => simp [Memory.insertCell, Memory.lookup, eq_comm]
  | cons k m ih =>
    obtain ⟨k, d⟩ := k
    simp only [Memory.insertCell]
    split
    · simp only [Memory.lookup, eq_comm]
    · split
      · subst a
        simp only [Memory.lookup, eq_comm]; split <;> simp_all
      · simp only [Memory.lookup, ih]
        split <;> split <;> simp_all

theorem Memory.lookup_eraseCell (m : Memory) (a c : Nat) :
    (m.eraseCell a).lookup c = if c = a then none else m.lookup c := by
  induction m with
  | nil => simp [Memory.eraseCell, Memory.lookup]
  | cons k m ih =>
    obtain ⟨k, d⟩ := k
    have hcons : Memory.eraseCell ((k, d) :: m) a = if k = a then Memory.eraseCell m a else (k, d) :: Memory.eraseCell m a := by
      by_cases h : k = a <;> simp [Memory.eraseCell, h]
    rw [hcons]
    by_cases h : k = a
    · subst h
      simp only [if_true, ih, Memory.lookup]
      by_cases hc : c = k
      · simp [hc]
      · have : k ≠ c := fun e => hc e.symm
        simp [hc, this]
    · simp only [if_neg h, Memory.lookup, ih]
      by_cases hk : k = c
      · subst hk; simp [h]
      · simp [hk]

/-- A byte read after a write: the written byte at its address, the old byte everywhere else. -/
theorem Memory.read_write (m : Memory) (a c : Nat) (b : Byte) (ha : a < 4096) :
    (m.write a b).read c = if c = a then b else m.read c := by
  simp only [Memory.write, memSize, ha, if_true, Memory.read]
  split
  · rename_i hb
    rw [Memory.lookup_eraseCell]
    by_cases hc : c = a
    · simp [hc, hb]
    · simp [hc]
  · rw [Memory.lookup_insertCell]
    by_cases hc : c = a <;> simp [hc]

theorem Memory.read_write_other (m : Memory) {a c : Nat} (b : Byte) (h : c ≠ a) : (m.write a b).read c = m.read c := by
  by_cases ha : a < 4096
  · rw [Memory.read_write m a c b ha, if_neg h]
  · simp [Memory.write, memSize, ha]

/-- A byte read after consecutive writes. -/
theorem Memory.read_writeBytes (bs : List Byte) (m : Memory) (a c : Nat) (h : a + bs.length ≤ 4096) :
    (m.writeBytes a bs).read c = if a ≤ c ∧ c < a + bs.length then bs.getD (c - a) 0 else m.read c := by
  induction bs generalizing m a with
  | nil =>
    have : ¬ (a ≤ c ∧ c < a + 0) := by omega
    simp only [Memory.writeBytes, List.length_nil, if_neg this]
  | cons b bs ih =>
    simp only [List.length_cons] at h
    simp only [Memory.writeBytes, List.length_cons]
    rw [ih (m.write a b) (a + 1) (by omega), Memory.read_write m a c b (by omega)]
    by_cases hc : c = a
    · subst hc
      have h1 : ¬ (c + 1 ≤ c ∧ c < c + 1 + bs.length) := by omega
      have h2 : c ≤ c ∧ c < c + (bs.length + 1) := by omega
      rw [if_neg h1, if_pos h2]; simp
    · by_cases hr : a + 1 ≤ c ∧ c < a + 1 + bs.length
      · have h2 : a ≤ c ∧ c < a + (bs.length + 1) := by omega
        have e : c - a = (c - (a + 1)) + 1 := by omega
        rw [if_pos hr, if_pos h2, e, List.getD_cons_succ]
      · have h2 : ¬ (a ≤ c ∧ c < a + (bs.length + 1)) := by omega
        rw [if_neg hr, if_neg h2, if_neg hc]

theorem Memory.read_writeBytes_outside (bs : List Byte) (m : Memory) (a c : Nat) (h : c < a ∨ a + bs.length ≤ c) :
    (m.writeBytes a bs).read c = m.read c := by
  induction bs generalizing m a with
  | nil => rfl
  | cons b bs ih =>
    simp only [List.length_cons] at h
    rw [Memory.writeBytes, ih (m.write a b) (a + 1) (by omega), Memory.read_write_other m b (by omega)]

@[simp] theorem Memory.readBytes_length (m : Memory) (a n : Nat) : (m.readBytes a n).length = n := by
  induction n generalizing a with
  | zero => rfl
  | succ n ih => simp [Memory.readBytes, ih]

theorem Memory.readBytes_getD (m : Memory) (a n k : Nat) (h : k < n) : (m.readBytes a n).getD k 0 = m.read (a + k) := by
  induction n generalizing a k with
  | zero => omega
  | succ n ih =>
    cases k with
    | zero => simp [Memory.readBytes]
    | succ k =>
      rw [Memory.readBytes, List.getD_cons_succ, ih (a + 1) k (by omega)]
      congr 1; omega

theorem Memory.insertCell_mem (m : Memory) (a : Nat) (b : Byte) (c : Host.Cell) (h : c ∈ m.insertCell a b) :
    c = (a, b) ∨ c ∈ m := by
  induction m with
  | nil => simpa [Memory.insertCell] using h
  | cons k m ih =>
    simp only [Memory.insertCell] at h
    split at h
    · simpa using h
    · split at h
      · simp only [List.mem_cons] at h ⊢; tauto
      · simp only [List.mem_cons] at h ⊢
        rcases h with h | h
        · tauto
        · rcases ih h with h | h <;> tauto

/-- A write keeps the canonical form. -/
theorem Memory.wf_write (m : Memory) (a : Nat) (b : Byte) (h : m.wf) : (m.write a b).wf := by
  obtain ⟨hp, hc⟩ := h
  simp only [Memory.write]
  split
  · rename_i ha
    split
    · exact ⟨hp.filter _, fun c hm => hc c (List.mem_filter.mp hm).1⟩
    · rename_i hb
      refine ⟨?_, fun c hm => ?_⟩
      · clear hc
        induction m with
        | nil => simp [Memory.insertCell]
        | cons k m ih =>
          obtain ⟨k, d⟩ := k
          simp only [List.pairwise_cons] at hp
          simp only [Memory.insertCell]
          split
          · rename_i hk
            simp only [List.pairwise_cons, List.mem_cons]
            refine ⟨?_, hp.1, hp.2⟩
            rintro c (rfl | hm)
            · exact hk
            · exact lt_trans hk (hp.1 c hm)
          · split
            · rename_i hk
              subst hk
              exact List.pairwise_cons.mpr ⟨hp.1, hp.2⟩
            · rename_i h1 h2
              refine List.pairwise_cons.mpr ⟨fun c hm => ?_, ih hp.2⟩
              rcases Memory.insertCell_mem m a b c hm with rfl | hm
              · simp only; omega
              · exact hp.1 c hm
      · rcases Memory.insertCell_mem m a b c hm with rfl | hm
        · exact ⟨ha, hb⟩
        · exact hc c hm
  · exact ⟨hp, hc⟩

/-- Consecutive writes keep the canonical form. -/
theorem Memory.wf_writeBytes (bs : List Byte) (m : Memory) (a : Nat) (h : m.wf) : (m.writeBytes a bs).wf := by
  induction bs generalizing m a with
  | nil => exact h
  | cons b bs ih => exact ih (m.write a b) (a + 1) (m.wf_write a b h)

/-- Reset memory is canonical. -/
theorem Memory.wf_reset : State.reset.mem.wf := by simp [State.reset, Memory.wf]

/-- A word fetched over two bytes of a write. -/
theorem Memory.fetchWord_writeBytes_bytesOf (m : Memory) (a : Nat) (w : Word) (h : a + 2 ≤ 4096) :
    (m.writeBytes a (bytesOf w)).fetchWord a = w := by
  have hl : (bytesOf w).length = 2 := rfl
  unfold Memory.fetchWord
  rw [Memory.read_writeBytes _ _ _ _ (by omega), Memory.read_writeBytes _ _ _ _ (by omega), if_pos (by omega),
    if_pos (by omega)]
  simp only [bytesOf, Nat.sub_self, Nat.add_sub_cancel_left, List.getD_cons_zero, List.getD_cons_succ]
  ext k hk
  simp only [BitVec.getElem_append, BitVec.getElem_extractLsb']
  split
  · simp only [Nat.zero_add]
    exact BitVec.getLsbD_eq_getElem hk
  · simp only [show 8 + (k - 8) = k by omega]
    exact BitVec.getLsbD_eq_getElem hk

end Sys2Proof.Machine
end

