-- ==== Sys2Proof/Laws/Regs.lean ====
section
/-! SUPPORT. What the register, PC, stack and check operations do, said once. -/

namespace Sys2Proof.Machine

/-- A register read after a register write. -/
theorem State.getV_setV (s : State) (x r : Reg) (b : Byte) : (s.setV x b).getV r = if r = x then b else s.getV r := by
  simp only [State.getV, State.setV]
  by_cases h : r = x
  · subst h; simp
  · have : x.val ≠ r.val := fun e => h (Fin.ext e.symm)
    simp [h, this]

@[simp] theorem State.getV_setV_same (s : State) (x : Reg) (b : Byte) : (s.setV x b).getV x = b := by
  simp [State.getV_setV]

theorem State.getV_setV_other (s : State) {x r : Reg} (b : Byte) (h : r ≠ x) : (s.setV x b).getV r = s.getV r := by
  simp [State.getV_setV, h]

/-- After a result and a flag, VF holds the flag and `x`, unless it is VF, the result. -/
theorem State.getV_setVFlag (s : State) (x r : Reg) (b f : Byte) :
    (s.setVFlag x b f).getV r = if r = vF then f else if r = x then b else s.getV r := by
  simp [State.setVFlag, State.getV_setV]

/-- A push writes the free slot and moves SP, when a slot is free. -/
theorem State.push?_some (s : State) (w : Word) (h : s.sp.val < 16) :
    s.push? w = some { s with stack := s.stack.set s.sp.val w, sp := ⟨s.sp.val + 1, by omega⟩ } := by
  simp [State.push?, stackDepth, h]

/-- No slot is free at SP = 16. -/
theorem State.push?_none (s : State) (w : Word) (h : s.sp.val = 16) : s.push? w = none := by
  simp [State.push?, stackDepth, h]

/-- A push answers only when a slot is free, and then the state of `push?_some`. -/
theorem State.push?_cases {s t : State} {w : Word} (h : s.push? w = some t) :
    ∃ hs : s.sp.val < 16, t = { s with stack := s.stack.set s.sp.val w, sp := ⟨s.sp.val + 1, by omega⟩ } := by
  by_cases hs : s.sp.val < 16
  · rw [State.push?_some s w hs] at h
    exact ⟨hs, (Option.some.inj h).symm⟩
  · simp [State.push?, stackDepth, hs] at h

/-- A pop reads the top slot and moves SP, when the stack is not empty. -/
theorem State.pop?_some (s : State) (h : 0 < s.sp.val) :
    s.pop? = some (s.stack[s.sp.val - 1]'(by have := s.sp.isLt; simp only [stackDepth]; omega),
      { s with sp := ⟨s.sp.val - 1, by have := s.sp.isLt; omega⟩ }) := by
  simp [State.pop?, h]

/-- The stack is empty at SP = 0. -/
theorem State.pop?_none (s : State) (h : s.sp.val = 0) : s.pop? = none := by
  simp [State.pop?, h]

/-- A pop answers only when the stack is not empty. -/
theorem State.pop?_cases {s t : State} {w : Word} (h : s.pop? = some (w, t)) :
    ∃ hs : 0 < s.sp.val, w = s.stack[s.sp.val - 1]'(by have := s.sp.isLt; simp only [stackDepth]; omega) ∧
      t = { s with sp := ⟨s.sp.val - 1, by have := s.sp.isLt; omega⟩ } := by
  by_cases hs : 0 < s.sp.val
  · rw [State.pop?_some s hs] at h
    have := Option.some.inj h
    exact ⟨hs, (congrArg Prod.fst this).symm, (congrArg Prod.snd this).symm⟩
  · simp [State.pop?, hs] at h

/-- The halt check in numbers. -/
theorem State.runsOffEnd_iff (s : State) : s.runsOffEnd = true ↔ 0xFFF ≤ s.pc.toNat := by
  simp [State.runsOffEnd]

/-- The bounds check in numbers. -/
theorem accessOk_iff (a count : Nat) : accessOk a count = true ↔ count = 0 ∨ a + count ≤ 4096 := by
  simp [accessOk, memSize]

/-- A checked access answers the state it was given, or the raised fault. -/
theorem State.ifInMemory_cases {s t u : State} {count : Nat} {w : Word} (h : s.ifInMemory count w t = .next u) :
    accessOk s.i.toNat count = true ∧ u = t ∨ accessOk s.i.toNat count = false ∧ u = s.raise .memBounds w := by
  unfold State.ifInMemory at h
  split at h
  · exact .inl ⟨‹_›, (Host.Outcome.next.inj h).symm⟩
  · rename_i hn
    exact .inr ⟨eq_false_of_ne_true hn, (Host.Outcome.next.inj h).symm⟩

end Sys2Proof.Machine
end

