-- ==== Sys2Proof/Laws/Exec.lean ====
section
/-! SUPPORT. What taking a fault does, what the instructions that may fault answer, and what a step can do, each said once. -/

namespace Sys2Proof.Machine

/-- Taking a fault writes Status, FaultCause and FaultInfo and nothing else (R232, R235). -/
theorem State.raise_faulted (s : State) (c : FaultCause) (w : Word) : Faulted c w s (s.raise c w) :=
  ⟨rfl, rfl, rfl, rfl, by constructor <;> simp⟩

/-- A call with a free slot. -/
theorem execCall_free (addr : Word) (s : State) (h : s.sp.val < 16) :
    execCall addr s = .next (({ s with
      stack := s.stack.set s.sp.val s.pc, sp := ⟨s.sp.val + 1, by omega⟩ } : State).setPc addr) := by
  simp only [execCall, State.push?_some s _ h]

/-- A return with a frame on the stack. -/
theorem execRet_frame (s : State) (h : 0 < s.sp.val) :
    execRet s = .next (({ s with sp := ⟨s.sp.val - 1, by have := s.sp.isLt; omega⟩ } : State).setPc
      (topOfStack s + 2)) := by
  simp only [execRet, State.pop?_some s h, topOfStack]
  congr 3
  have := s.sp.isLt
  have hl : s.sp.val - 1 < s.stack.toList.length := by simp [stackDepth]; omega
  rw [List.getD_eq_getElem _ _ hl]; simp

/-- An access inside memory retires. -/
theorem State.ifInMemory_inside (s t : State) (count : Nat) (w : Word) (h : count = 0 ∨ s.i.toNat + count ≤ 4096) :
    s.ifInMemory count w t = .next t := by
  rw [State.ifInMemory, (accessOk_iff _ _).mpr h, if_pos rfl]

/-- An access beyond memory raises MEM_BOUNDS. -/
theorem State.ifInMemory_beyond (s t : State) (count : Nat) (w : Word) (h0 : 0 < count) (h : 4096 < s.i.toNat + count) :
    s.ifInMemory count w t = .next (s.raise .memBounds w) := by
  have : ¬ accessOk s.i.toNat count = true := by rw [accessOk_iff]; omega
  rw [State.ifInMemory, if_neg this]

/-- The key check in numbers. -/
theorem isKey_iff (b : Byte) : isKey b = true ↔ b.toNat ≤ 0x0F := by simp [isKey]

/-- The key a query names when V[X] is the number of a key. -/
theorem keyOf_toNat (b : Byte) (h : isKey b = true) : (keyOf b).toNat = b.toNat := by
  have := (isKey_iff b).mp h
  rw [keyOf, BitVec.extractLsb'_toNat]
  simp only [Nat.shiftRight_zero]; omega

/-- An instruction on its fault condition raises that fault with its own word. -/
theorem exec_of_fault (i : Instr) (s : State) (c : FaultCause) (h : faultOf s i = some c) :
    exec i s = .next (s.raise c (encode i)) := by
  cases i <;> simp only [faultOf, reduceCtorEq, Option.ite_none_right_eq_some, Option.some.injEq] at h <;>
    obtain ⟨h, rfl⟩ := h <;> simp only [exec]
  case call addr => simp only [execCall, State.push?_none s _ h]
  case ret => simp only [execRet, State.pop?_none s h]
  case ldBVx x => exact State.ifInMemory_beyond _ _ _ _ (by omega) (by omega)
  case storeRegs x => exact State.ifInMemory_beyond _ _ _ _ (by omega) (by omega)
  case loadRegs x => exact State.ifInMemory_beyond _ _ _ _ (by omega) (by omega)
  case drw x y n => exact State.ifInMemory_beyond _ _ _ _ (by omega) (by omega)
  case skp x => rw [execSkp, if_neg (by rw [isKey_iff]; omega)]
  case sknp x => rw [execSknp, if_neg (by rw [isKey_iff]; omega)]

/-- A CPU step of a running core: it halts, executes the decoded instruction, or faults on an illegal word. -/
theorem cycleRun_cases {s t : State} (h : cycleRun s = .next t) :
    (0xFFF ≤ s.pc.toNat ∧ t = s.setStatus .halted) ∨
    (s.pc.toNat ≤ 0xFFE ∧ ∃ i, decode s.fetch = .ok i ∧ exec i s = .next t) ∨
    (s.pc.toNat ≤ 0xFFE ∧ ∃ e, decode s.fetch = .error e ∧ t = s.raise .decodeError s.fetch) := by
  unfold cycleRun at h
  split at h
  · rename_i hr
    exact .inl ⟨(s.runsOffEnd_iff).mp hr, (Host.Outcome.next.inj h).symm⟩
  · rename_i hr
    rw [State.runsOffEnd_iff] at hr
    split at h
    · exact .inr (.inl ⟨by omega, _, ‹_›, h⟩)
    · exact .inr (.inr ⟨by omega, _, ‹_›, (Host.Outcome.next.inj h).symm⟩)

/-- A CPU step: a running core's step, or no change. -/
theorem cycle_cases {s t : State} (h : cycle s = .next t) :
    (s.status = .run ∧ cycleRun s = .next t) ∨ (s.status ≠ .run ∧ t = s) := by
  unfold cycle at h
  split at h
  · exact .inl ⟨‹_›, h⟩
  all_goals
    rename_i hs
    exact .inr ⟨by rw [hs]; decide, (Host.Outcome.next.inj h).symm⟩

/-- A key press: it ends a wait, or changes nothing. -/
theorem State.keyEvent_cases (s : State) (k : Nibble) :
    (s.status = .waitKey ∧ s.keyEvent k = ((s.setV s.waitReg (k.setWidth 8)).advance).setStatus .run) ∨
    (s.status ≠ .waitKey ∧ s.keyEvent k = s) := by
  unfold State.keyEvent
  cases h : s.status <;> simp

/-- Taking a move off changes the order of moves only. -/
theorem nextMove_state (s : State) : ∃ rest r, (nextMove s).2 = s.setOrder rest r := by
  unfold nextMove
  split
  · exact ⟨_, s.rounds, rfl⟩
  · exact ⟨_, s.rounds + 1, rfl⟩

/-- The first move settled is the next one. -/
theorem nextMove_cons (s : State) (m : Move) (ms : List Move) (h : s.schedule = m :: ms) :
    nextMove s = (m, s.setSchedule ms) := by
  simp only [nextMove, h]

/-- With no move settled, the next one is the first of a new round. -/
theorem nextMove_nil (s : State) (h : s.schedule = []) :
    nextMove s = ((roundMoves s.rounds).1, s.setOrder (roundMoves s.rounds).2 (s.rounds + 1)) := by
  simp only [nextMove, h]

/-- A round is its free moves and its closing tick. -/
theorem roundMoves_eq (n : Nat) : (roundMoves n).1 :: (roundMoves n).2 = Config.freeMoves n ++ [closingTick n] := by
  unfold roundMoves
  cases Config.freeMoves n <;> rfl

/-- A step is the move of one agent on the state with that move taken off. -/
theorem step_cases {s t : State} (h : step s = .next t) :
    (nextMove s).1 = .cpu ∧ cycle (nextMove s).2 = .next t ∨
      (nextMove s).1 = .tickDt ∧ t = (nextMove s).2.tickDt ∨
      (nextMove s).1 = .tickSt ∧ t = (nextMove s).2.tickSt ∨
      ∃ k, (nextMove s).1 = .press k ∧ t = (nextMove s).2.keyEvent k := by
  unfold step at h
  cases hm : (nextMove s).1 <;> rw [hm] at h
  case cpu => exact .inl ⟨rfl, h⟩
  case tickDt => exact .inr (.inl ⟨rfl, (Host.Outcome.next.inj h).symm⟩)
  case tickSt => exact .inr (.inr (.inl ⟨rfl, (Host.Outcome.next.inj h).symm⟩))
  case press k => exact .inr (.inr (.inr ⟨k, rfl, (Host.Outcome.next.inj h).symm⟩))

/-- An instruction neither reads nor writes the order of moves: under another schedule and round it answers the same next state,
but for them. -/
theorem exec_order (i : Instr) {s t : State} (ms : List Move) (r : Nat) (h : exec i s = .next t) :
    exec i (s.setOrder ms r) = .next (t.setOrder ms r) := by
  cases i
  case call addr =>
    change execCall addr s = _ at h
    show execCall addr (s.setOrder ms r) = _
    by_cases hs : s.sp.val < 16
    · rw [execCall_free addr s hs] at h; cases h
      exact execCall_free addr (s.setOrder ms r) hs
    · have hs' : s.sp.val = 16 := by have := s.sp.isLt; omega
      rw [execCall, State.push?_none s _ hs'] at h; cases h
      rw [execCall, State.push?_none (s.setOrder ms r) _ hs']; rfl
  case ret =>
    change execRet s = _ at h
    show execRet (s.setOrder ms r) = _
    by_cases hs : 0 < s.sp.val
    · rw [execRet_frame s hs] at h; cases h
      exact execRet_frame (s.setOrder ms r) hs
    · have hs' : s.sp.val = 0 := by omega
      rw [execRet, State.pop?_none s hs'] at h; cases h
      rw [execRet, State.pop?_none (s.setOrder ms r) hs']; rfl
  case drw | ldBVx | storeRegs | loadRegs =>
    rcases State.ifInMemory_cases h with ⟨ok, rfl⟩ | ⟨ok, rfl⟩
    · exact if_pos ok
    · exact if_neg (ne_true_of_eq_false ok)
  case skp x | sknp x =>
    by_cases ok : isKey (s.getV x) = true
    · cases (if_pos ok).symm.trans h
      exact if_pos ok
    · cases (if_neg ok).symm.trans h
      exact if_neg ok
  all_goals
    rw [← Host.Outcome.next.inj h]; rfl

/-- No move of an agent reads or writes the order of moves. -/
theorem perform_order (m : Move) {s t : State} (ms : List Move) (r : Nat) (h : perform m s = .next t) :
    perform m (s.setOrder ms r) = .next (t.setOrder ms r) := by
  cases m
  case cpu =>
    rcases cycle_cases h with ⟨hs, h⟩ | ⟨hs, rfl⟩
    · have hc : cycle (s.setOrder ms r) = cycleRun (s.setOrder ms r) := by simp only [cycle, State.setOrder_status, hs]
      refine hc.trans ?_
      unfold cycleRun at h ⊢
      rw [State.setOrder_fetch, show (s.setOrder ms r).runsOffEnd = s.runsOffEnd from rfl]
      split at h
      · rw [if_pos ‹_›, ← Host.Outcome.next.inj h]; rfl
      · rw [if_neg ‹_›]
        split at h
        · exact exec_order _ ms r h
        · rw [← Host.Outcome.next.inj h]; rfl
    · cases hs' : t.status
      · exact absurd hs' hs
      all_goals simp only [perform, cycle, State.setOrder_status, hs']
  case tickDt => rw [← Host.Outcome.next.inj h]; rfl
  case tickSt => rw [← Host.Outcome.next.inj h]; rfl
  case press k =>
    rw [← Host.Outcome.next.inj h]
    show Host.Outcome.next ((s.setOrder ms r).keyEvent k) = _
    unfold State.keyEvent
    rw [State.setOrder_status]
    cases s.status <;> rfl

/-- A run of `m + n` moves is a run of `n` after a run of `m`. -/
theorem after_add (m n : Nat) (s : State) : after (m + n) s = after n (after m s) := by
  induction m generalizing s with
  | zero => rw [Nat.zero_add]; rfl
  | succ m ih => rw [Nat.succ_add]; exact ih (stepped s)

/-- The last move of a run. -/
theorem after_succ (n : Nat) (s : State) : after (n + 1) s = stepped (after n s) := after_add n 1 s

/-- What every move keeps, a run keeps. -/
theorem after_keeps {P : State → Prop} (keep : ∀ s, P s → P (stepped s)) (n : Nat) {s : State} (h : P s) : P (after n s) := by
  induction n generalizing s with
  | zero => exact h
  | succ n ih => exact ih (keep s h)

/-- A tick in numbers. -/
theorem tick_toNat (b : Byte) : (tick b).toNat = b.toNat - 1 := by
  unfold tick; split
  · rename_i h; simp [h]
  · rename_i h
    have : b.toNat ≠ 0 := fun e => h (BitVec.eq_of_toNat_eq e)
    have := b.isLt
    rw [BitVec.toNat_sub]; simp; omega

end Sys2Proof.Machine
end

