-- ==== Sys2Proof/Laws/PerInstr.lean ====
section
/-! SUPPORT. The per-instruction family EncodesInRow: the fixed nibbles of an instruction's word are those of its row of
spec/opcode_table.json, its mask and match (30_encoding.md R95), whatever the operands. -/

namespace Sys2Proof.Laws.EncodesInRow

/-- The word of `i` matches the row of `i`. -/
def Statement (i : Instr) : Prop := encode i &&& i.rowMask = i.rowMatch

/-- Masking a word nibble by nibble. -/
theorem join_and (f g : Nibbles) :
    joinNibbles f &&& joinNibbles g = joinNibbles ⟨f.n0 &&& g.n0, f.n1 &&& g.n1, f.n2 &&& g.n2, f.n3 &&& g.n3⟩ := by
  have h4 : (f.n0 ++ f.n1 ++ f.n2 ++ f.n3) &&& (g.n0 ++ g.n1 ++ g.n2 ++ g.n3) =
      (f.n0 &&& g.n0) ++ (f.n1 &&& g.n1) ++ (f.n2 &&& g.n2) ++ (f.n3 &&& g.n3) := by
    simp only [BitVec.and_append]
  exact h4

/-- A word whose masked nibbles are those of the match. -/
theorem of_nibbles {i : Instr} (m r : Nibbles) (hm : i.rowMask = joinNibbles m) (hr : i.rowMatch = joinNibbles r)
    (h : (⟨i.nibbles.n0 &&& m.n0, i.nibbles.n1 &&& m.n1, i.nibbles.n2 &&& m.n2, i.nibbles.n3 &&& m.n3⟩ : Nibbles) = r) :
    Statement i := by
  rw [Statement, hm, hr, encode, join_and, h]

theorem and_zero (a : Nibble) : a &&& 0 = 0 := BitVec.and_zero

/-- Format A: only the primary nibble is fixed. -/
theorem rowA {i : Instr} (op : Nibble) (addr : Word) (hi : i.nibbles = formatA op addr) (hm : i.rowMask = 0xF000)
    (hr : i.rowMatch = joinNibbles ⟨op, 0, 0, 0⟩) : Statement i := by
  refine of_nibbles ⟨0xF, 0, 0, 0⟩ ⟨op, 0, 0, 0⟩ (hm.trans (by decide)) hr ?_
  simp only [hi, formatA, and_zero, Nibbles.mk.injEq, and_true]
  exact BitVec.and_allOnes

/-- Format XNN: only the primary nibble is fixed. -/
theorem rowXNN {i : Instr} (op : Nibble) (x : Reg) (nn : Byte) (hi : i.nibbles = formatXNN op x nn)
    (hm : i.rowMask = 0xF000) (hr : i.rowMatch = joinNibbles ⟨op, 0, 0, 0⟩) : Statement i := by
  refine of_nibbles ⟨0xF, 0, 0, 0⟩ ⟨op, 0, 0, 0⟩ (hm.trans (by decide)) hr ?_
  simp only [hi, formatXNN, and_zero, Nibbles.mk.injEq, and_true]
  exact BitVec.and_allOnes

/-- Format Xss: the primary nibble and the low byte are fixed. -/
theorem rowXss {i : Instr} (op : Nibble) (x : Reg) (nn : Byte) (hi : i.nibbles = formatXNN op x nn)
    (hm : i.rowMask = 0xF0FF) (hr : i.rowMatch = joinNibbles ⟨op, 0, nn.extractLsb' 4 4, nn.extractLsb' 0 4⟩) :
    Statement i := by
  refine of_nibbles ⟨0xF, 0, 0xF, 0xF⟩ _ (hm.trans (by decide)) hr ?_
  simp only [hi, formatXNN, and_zero, Nibbles.mk.injEq, true_and]
  exact ⟨BitVec.and_allOnes, BitVec.and_allOnes, BitVec.and_allOnes⟩

/-- Format XYs: the primary and the last nibble are fixed. -/
theorem rowXYs {i : Instr} (op : Nibble) (x y : Reg) (k : Nibble) (hi : i.nibbles = formatXY op x y k)
    (hm : i.rowMask = 0xF00F) (hr : i.rowMatch = joinNibbles ⟨op, 0, 0, k⟩) : Statement i := by
  refine of_nibbles ⟨0xF, 0, 0, 0xF⟩ _ (hm.trans (by decide)) hr ?_
  simp only [hi, formatXY, and_zero, Nibbles.mk.injEq, true_and]
  exact ⟨BitVec.and_allOnes, BitVec.and_allOnes⟩

theorem cls : Statement .cls := by unfold Statement; decide
theorem ret : Statement .ret := by unfold Statement; decide
theorem jp (addr : Word) : Statement (.jp addr) := rowA 0x1 addr rfl rfl rfl
theorem call (addr : Word) : Statement (.call addr) := rowA 0x2 addr rfl rfl rfl
theorem seByte (x : Reg) (nn : Byte) : Statement (.seByte x nn) := rowXNN 0x3 x nn rfl rfl rfl
theorem sneByte (x : Reg) (nn : Byte) : Statement (.sneByte x nn) := rowXNN 0x4 x nn rfl rfl rfl
theorem seReg (x y : Reg) : Statement (.seReg x y) := rowXYs 0x5 x y 0x0 rfl rfl rfl
theorem ldByte (x : Reg) (nn : Byte) : Statement (.ldByte x nn) := rowXNN 0x6 x nn rfl rfl rfl
theorem addByte (x : Reg) (nn : Byte) : Statement (.addByte x nn) := rowXNN 0x7 x nn rfl rfl rfl
theorem ldReg (x y : Reg) : Statement (.ldReg x y) := rowXYs 0x8 x y 0x0 rfl rfl rfl
theorem orReg (x y : Reg) : Statement (.orReg x y) := rowXYs 0x8 x y 0x1 rfl rfl rfl
theorem andReg (x y : Reg) : Statement (.andReg x y) := rowXYs 0x8 x y 0x2 rfl rfl rfl
theorem xorReg (x y : Reg) : Statement (.xorReg x y) := rowXYs 0x8 x y 0x3 rfl rfl rfl
theorem addReg (x y : Reg) : Statement (.addReg x y) := rowXYs 0x8 x y 0x4 rfl rfl rfl
theorem subReg (x y : Reg) : Statement (.subReg x y) := rowXYs 0x8 x y 0x5 rfl rfl rfl
theorem shr (x y : Reg) : Statement (.shr x y) := rowXYs 0x8 x y 0x6 rfl rfl rfl
theorem subnReg (x y : Reg) : Statement (.subnReg x y) := rowXYs 0x8 x y 0x7 rfl rfl rfl
theorem shl (x y : Reg) : Statement (.shl x y) := rowXYs 0x8 x y 0xE rfl rfl rfl
theorem sneReg (x y : Reg) : Statement (.sneReg x y) := rowXYs 0x9 x y 0x0 rfl rfl rfl
theorem ldI (addr : Word) : Statement (.ldI addr) := rowA 0xA addr rfl rfl rfl
theorem jpV0 (addr : Word) : Statement (.jpV0 addr) := rowA 0xB addr rfl rfl rfl
theorem rnd (x : Reg) (nn : Byte) : Statement (.rnd x nn) := rowXNN 0xC x nn rfl rfl rfl

theorem drw (x y : Reg) (n : Nat) : Statement (.drw x y n) := by
  refine of_nibbles ⟨0xF, 0, 0, 0⟩ ⟨0xD, 0, 0, 0⟩ (by simp only [Instr.rowMask]; decide)
    (by simp only [Instr.rowMatch]; decide) ?_
  simp only [Instr.nibbles, formatXY, and_zero, Nibbles.mk.injEq, and_true]
  decide

theorem skp (x : Reg) : Statement (.skp x) := rowXss 0xE x 0x9E rfl rfl rfl
theorem sknp (x : Reg) : Statement (.sknp x) := rowXss 0xE x 0xA1 rfl rfl rfl
theorem ldVxDt (x : Reg) : Statement (.ldVxDt x) := rowXss 0xF x 0x07 rfl rfl rfl
theorem ldVxK (x : Reg) : Statement (.ldVxK x) := rowXss 0xF x 0x0A rfl rfl rfl
theorem ldDtVx (x : Reg) : Statement (.ldDtVx x) := rowXss 0xF x 0x15 rfl rfl rfl
theorem ldStVx (x : Reg) : Statement (.ldStVx x) := rowXss 0xF x 0x18 rfl rfl rfl
theorem addIVx (x : Reg) : Statement (.addIVx x) := rowXss 0xF x 0x1E rfl rfl rfl
theorem ldFVx (x : Reg) : Statement (.ldFVx x) := rowXss 0xF x 0x29 rfl rfl rfl
theorem ldBVx (x : Reg) : Statement (.ldBVx x) := rowXss 0xF x 0x33 rfl rfl rfl
theorem storeRegs (x : Reg) : Statement (.storeRegs x) := rowXss 0xF x 0x55 rfl rfl rfl
theorem loadRegs (x : Reg) : Statement (.loadRegs x) := rowXss 0xF x 0x65 rfl rfl rfl

end Sys2Proof.Laws.EncodesInRow
end

