-- ==== Sys2Proof/Laws/Results.lean ====
section
/-! SUPPORT. The flags and shifts as numbers, and what FX55, FX65 and FX33 read and write, each said once. -/

namespace Sys2Proof.Machine

theorem flagOf_toNat (p : Bool) : (flagOf p).toNat = if p then 1 else 0 := by cases p <;> rfl

theorem carryFlag_toNat (a b : Byte) : (carryFlag a b).toNat = if a.toNat + b.toNat > 255 then 1 else 0 := by
  simp [carryFlag, flagOf_toNat]

theorem noBorrowFlag_toNat (a b : Byte) : (noBorrowFlag a b).toNat = if a.toNat ≥ b.toNat then 1 else 0 := by
  simp [noBorrowFlag, flagOf_toNat]

theorem shrFlag_toNat (b : Byte) : (shrFlag b).toNat = b.toNat % 2 := by
  rw [shrFlag, flagOf_toNat, BitVec.getLsbD, Nat.testBit_zero]
  rcases Nat.mod_two_eq_zero_or_one b.toNat with h | h <;> simp [h]

theorem shlFlag_toNat (b : Byte) : (shlFlag b).toNat = b.toNat / 128 := by
  have := b.isLt
  rw [shlFlag, flagOf_toNat, BitVec.getLsbD, Nat.testBit, Nat.shiftRight_eq_div_pow]; simp
  split <;> omega

theorem toNat_shiftRight_one (b : Byte) : (b >>> 1).toNat = b.toNat / 2 := by simp [Nat.shiftRight_eq_div_pow]

theorem toNat_shiftLeft_one (b : Byte) : (b <<< 1).toNat = b.toNat * 2 % 256 := by simp [Nat.shiftLeft_eq]

/-- `lowRegs` lists X + 1 registers. -/
@[simp] theorem lowRegs_length (s : State) (x : Reg) : (lowRegs s x).length = x.val + 1 := by
  simp [lowRegs]

/-- Entry k of `lowRegs` is V[k]. -/
theorem lowRegs_getD (s : State) (x k : Reg) (h : k.val ≤ x.val) : (lowRegs s x).getD k.val 0 = s.getV k := by
  have : k.val < x.val + 1 := by omega
  simp [lowRegs, List.getD_eq_getElem?_getD, this, State.getV]

/-- I after FX55 and FX65 as a number. -/
theorem indexAfterLdst_toNat (q : Quirks) (i : Word) (x : Reg) :
    (indexAfterLdst q i x).toNat =
      match q.ldstIncrement with
      | .unchanged => i.toNat
      | .xPlusOne => (i.toNat + x.val + 1) % 65536
      | .x => (i.toNat + x.val) % 65536 := by
  unfold indexAfterLdst; cases q.ldstIncrement <;> simp [BitVec.toNat_add, Nat.add_assoc]

/-- A byte read after FX55's store. -/
theorem State.storeLow_read (q : Quirks) (s : State) (x : Reg) (h : s.i.toNat + x.val ≤ 0xFFF) (a : Nat) :
    (s.storeLow q x).mem.read a =
      if s.i.toNat ≤ a ∧ a < s.i.toNat + (x.val + 1) then (lowRegs s x).getD (a - s.i.toNat) 0 else s.mem.read a := by
  simp only [State.storeLow, State.setI_mem, State.setMem_mem]
  rw [Memory.read_writeBytes _ _ _ _ (by rw [lowRegs_length]; omega), lowRegs_length]

/-- A byte read after FX33's store. -/
theorem State.storeDigits_read (s : State) (x : Reg) (h : s.i.toNat + 2 ≤ 0xFFF) (a : Nat) :
    (s.storeDigits x).mem.read a =
      if s.i.toNat ≤ a ∧ a < s.i.toNat + 3 then (decimalDigits (s.getV x)).getD (a - s.i.toNat) 0 else s.mem.read a := by
  simp only [State.storeDigits, State.setMem_mem]
  exact Memory.read_writeBytes _ _ _ _ (by simp [decimalDigits]; omega)

/-- A register after FX65's load. -/
theorem State.loadLow_getV (s : State) (x k : Reg) :
    (s.loadLow x).getV k = if k.val ≤ x.val then s.mem.read (s.i.toNat + k.val) else s.getV k := by
  simp [State.getV, State.loadLow, inLowRegs]

/-! Every operation of the machine that writes memory keeps its canonical form -/

theorem State.storeLow_wf (q : Quirks) (s : State) (x : Reg) (h : s.mem.wf) : (s.storeLow q x).mem.wf :=
  Memory.wf_writeBytes _ _ _ h

theorem State.storeDigits_wf (s : State) (x : Reg) (h : s.mem.wf) : (s.storeDigits x).mem.wf :=
  Memory.wf_writeBytes _ _ _ h

theorem State.load_wf (s : State) (address : Nat) (bytes : List Byte) (h : s.mem.wf) : (s.load address bytes).1.mem.wf :=
  Memory.wf_writeBytes _ _ _ h

theorem State.readyToFetch_mem (s : State) : s.readyToFetch.mem = s.mem := by
  cases h : s.status <;> simp only [State.readyToFetch, h] <;> split <;> rfl

theorem State.placeWord_wf (s : State) (nbits w : Nat) (h : s.mem.wf) : (s.placeWord nbits w).mem.wf :=
  Memory.wf_writeBytes _ _ _ (s.readyToFetch_mem ▸ h)

end Sys2Proof.Machine
end

