-- ==== Sys2Proof/Tests/Slice0.lean ====
section
/-! SUPPORT. The model's own tests. Expected values are those of spec/95_test_vectors.md, named S, V or P as there, or are read
off the rules by hand. Last come the witnesses: for each statement with hypotheses, states and operands that meet them. -/

namespace Sys2Proof.Tests
open Sys2Proof Sys2Proof.Machine

/-! Well-formedness: ill-formed terms are refused -/

theorem test_wf_jp_refused : (Instr.jp 0x1000).wellFormed = false := by decide
theorem test_wf_call_refused : (Instr.call 0x1000).wellFormed = false := by decide
theorem test_wf_ldI_refused : (Instr.ldI 0xFFFF).wellFormed = false := by decide
theorem test_wf_jpV0_refused : (Instr.jpV0 0x1000).wellFormed = false := by decide
theorem test_wf_drw_refused : (Instr.drw 0 0 16).wellFormed = false := by decide
theorem test_wf_bounds_accepted : (Instr.jp 0xFFF).wellFormed = true ∧ (Instr.drw 15 15 15).wellFormed = true := by decide

/-! Decoding: every constructor from a word written out from its pattern (R92, R95) -/

theorem test_decode_system : decode 0x00E0 = .ok .cls ∧ decode 0x00EE = .ok .ret := by decide
theorem test_decode_jumps : decode 0x1ABC = .ok (.jp 0xABC) ∧ decode 0x2DEF = .ok (.call 0xDEF) ∧
    decode 0xB123 = .ok (.jpV0 0x123) := by decide
theorem test_decode_skips : decode 0x3A07 = .ok (.seByte 0xA 0x07) ∧ decode 0x4B18 = .ok (.sneByte 0xB 0x18) ∧
    decode 0x5120 = .ok (.seReg 1 2) ∧ decode 0x9340 = .ok (.sneReg 3 4) := by decide
theorem test_decode_immediates : decode 0x6A02 = .ok (.ldByte 0xA 0x02) ∧ decode 0x7CFF = .ok (.addByte 0xC 0xFF) := by decide
theorem test_decode_alu_low : decode 0x8120 = .ok (.ldReg 1 2) ∧ decode 0x8121 = .ok (.orReg 1 2) ∧
    decode 0x8122 = .ok (.andReg 1 2) ∧ decode 0x8123 = .ok (.xorReg 1 2) ∧ decode 0x8124 = .ok (.addReg 1 2) := by decide
theorem test_decode_alu_high : decode 0x8235 = .ok (.subReg 2 3) ∧ decode 0x8456 = .ok (.shr 4 5) ∧
    decode 0x8127 = .ok (.subnReg 1 2) ∧ decode 0x845E = .ok (.shl 4 5) := by decide
theorem test_decode_index : decode 0xA300 = .ok (.ldI 0x300) ∧ decode 0xF21E = .ok (.addIVx 2) ∧
    decode 0xF029 = .ok (.ldFVx 0) := by decide
theorem test_decode_memory : decode 0xF533 = .ok (.ldBVx 5) ∧ decode 0xF655 = .ok (.storeRegs 6) ∧
    decode 0xF765 = .ok (.loadRegs 7) := by decide
theorem test_decode_random_display : decode 0xC30F = .ok (.rnd 3 0x0F) ∧ decode 0xDAB5 = .ok (.drw 0xA 0xB 5) := by decide
theorem test_decode_keys : decode 0xE59E = .ok (.skp 5) ∧ decode 0xE5A1 = .ok (.sknp 5) ∧
    decode 0xF30A = .ok (.ldVxK 3) := by decide
theorem test_decode_timers : decode 0xF107 = .ok (.ldVxDt 1) ∧ decode 0xF815 = .ok (.ldDtVx 8) ∧
    decode 0xF918 = .ok (.ldStVx 9) := by decide
/-- V5 to V11. -/
theorem test_decode_illegal : decode 0x5121 = .error .seRegLowNibble ∧ decode 0x8128 = .error .aluSubOpcode ∧
    decode 0x912F = .error .sneRegLowNibble ∧ decode 0xE1FF = .error .keySubOpcode ∧
    decode 0xF1FF = .error .miscSubOpcode ∧ decode 0x0123 = .error .machineCall ∧
    decode 0x00FF = .error .machineCall := by decide
/-- S1, S11. -/
theorem test_split : splitWord 0xD12F = ⟨0xD, 1, 2, 0xF⟩ ∧ joinNibbles ⟨0xD, 1, 2, 0xF⟩ = 0xD12F ∧
    splitWord (wordOf 0x12 0x34) = ⟨1, 2, 3, 4⟩ := by decide
theorem test_decodeBytes : decodeBytes [0x6A, 0x02, 0x7A] = .ok (.ldByte 0xA 2, [0x7A]) ∧
    decodeBytes [0x6A] = .error .truncated := by decide
theorem test_encode : encode (.subReg 2 3) = 0x8235 ∧ encode (.jp 0xABC) = 0x1ABC ∧ encode (.drw 0xA 0xB 5) = 0xDAB5 ∧
    encode (.ldBVx 5) = 0xF533 := by decide

/-! One step -/

/-- The reset state with some registers and I set. -/
def setup (vs : List (Reg × Byte)) (i : Word := 0) : State := (vs.foldl (fun s p => s.setV p.1 p.2) State.reset).setI i

/-- The word `w` at PC, one step, and a check of the next state. -/
def runs (s : State) (w : Nat) (check : State → Bool) : Bool :=
  match step (s.withFetchWord 16 w) with
  | .next t => check t
  | .fault _ => false
  | .refused _ => false

/-- The step raised the fault, with its word, and left PC. -/
def faults (s : State) (w : Nat) (c : FaultCause) : Bool :=
  runs s w fun t => t.status = .fault && t.faultCause = c && t.faultInfo = BitVec.ofNat 16 w && t.pc = s.pc

/-- V10: SYS is not an instruction. -/
theorem test_sys_faults : faults State.reset 0x0123 .decodeError = true := by decide
/-- V12: an odd PC fetches normally. -/
theorem test_odd_pc : runs (State.reset.setPc 0x201) 0x6A05 (fun t => t.getV 0xA = 5 && t.pc = 0x203) = true := by decide
/-- V2: the last place a word fits. -/
theorem test_last_pc : runs (State.reset.setPc 0xFFE) 0x6A05 (fun t => t.getV 0xA = 5 && t.pc = 0x1000) = true := by decide
/-- V22. -/
theorem test_jp : runs State.reset 0x1FFF (fun t => t.pc = 0xFFF && t.status = .run) = true := by decide
/-- V25. -/
theorem test_jpV0 : runs (setup [(0, 0xFF)]) 0xBFFF (fun t => t.pc = 0x10FE) = true := by decide
/-- V27. -/
theorem test_jpV0_vx : jumpTarget { quirks with jumpOffsetReg := .vx } (setup [(0, 1), (3, 0x20)]) 0x300 = 0x320 ∧
    jumpTarget quirks (setup [(0, 1), (3, 0x20)]) 0x300 = 0x301 := by decide
/-- V29. -/
theorem test_call_last_slot : runs { State.reset with sp := 15 } 0x2400
    (fun t => t.stack[15] = 0x200 && t.sp = 16 && t.pc = 0x400) = true := by decide
/-- V30. -/
theorem test_call_overflow : faults { State.reset with sp := 16 } 0x2400 .stackOverflow = true := by decide
/-- V31: the slot stays stale. -/
theorem test_ret : runs { State.reset with sp := 1, stack := State.reset.stack.set 0 0x206 } 0x00EE
    (fun t => t.sp = 0 && t.pc = 0x208 && t.stack[0] = 0x206) = true := by decide
/-- V32. -/
theorem test_ret_underflow : faults State.reset 0x00EE .stackUnderflow = true := by decide
/-- V34, V35. -/
theorem test_seByte : runs (setup [(0xA, 7)]) 0x3A07 (fun t => t.pc = 0x204) = true ∧
    runs (setup [(0xA, 6)]) 0x3A07 (fun t => t.pc = 0x202) = true := by decide
/-- V36, V37. -/
theorem test_sneByte : runs (setup [(0xA, 6)]) 0x4A07 (fun t => t.pc = 0x204) = true ∧
    runs (setup [(0xA, 7)]) 0x4A07 (fun t => t.pc = 0x202) = true := by decide
/-- V38, V39. -/
theorem test_seReg : runs (setup [(1, 0x33), (2, 0x33)]) 0x5120 (fun t => t.pc = 0x204) = true ∧
    runs (setup [(1, 1), (2, 2)]) 0x5120 (fun t => t.pc = 0x202) = true := by decide
/-- V41, V42. -/
theorem test_sneReg : runs (setup [(1, 1), (2, 2)]) 0x9120 (fun t => t.pc = 0x204) = true ∧
    runs (setup [(1, 1)]) 0x9110 (fun t => t.pc = 0x202) = true := by decide
/-- V51: VF loads like any register. -/
theorem test_ldByte : runs State.reset 0x6FAB (fun t => t.getV 0xF = 0xAB && t.pc = 0x202) = true := by decide
/-- V53: no flag. -/
theorem test_addByte : runs (setup [(0xA, 0xFF)]) 0x7A01 (fun t => t.getV 0xA = 0 && t.getV 0xF = 0) = true := by decide
/-- V55. -/
theorem test_ldReg : runs (setup [(2, 0x5A)]) 0x8120 (fun t => t.getV 1 = 0x5A) = true := by decide
/-- V56. -/
theorem test_orReg : runs (setup [(1, 0x0F), (2, 0xF0), (0xF, 0x55)]) 0x8121
    (fun t => t.getV 1 = 0xFF && t.getV 0xF = 0x55) = true := by decide
/-- V56 at LOGIC_VF_RESET. -/
theorem test_orReg_vfReset : ((setup [(0xF, 0x55)]).setLogic { quirks with logicVfReset := true } 1 0xFF).getV 0xF = 0 := by
  decide
/-- V57. -/
theorem test_andReg : runs (setup [(1, 0x3C), (2, 0x0F)]) 0x8122 (fun t => t.getV 1 = 0x0C) = true := by decide
/-- V58. -/
theorem test_xorReg : runs (setup [(1, 0xFF), (2, 0x0F)]) 0x8123 (fun t => t.getV 1 = 0xF0) = true := by decide
/-- V60. -/
theorem test_addReg : runs (setup [(0, 0xFF), (1, 1)]) 0x8014 (fun t => t.getV 0 = 0 && t.getV 0xF = 1) = true := by decide
/-- V64, V65: VF as destination and as operand. -/
theorem test_addReg_vf : runs (setup [(0xF, 0xFF), (1, 1)]) 0x8F14 (fun t => t.getV 0xF = 1) = true ∧
    runs (setup [(0xF, 1), (1, 0x10)]) 0x81F4 (fun t => t.getV 1 = 0x11 && t.getV 0xF = 0) = true := by decide
/-- V66, V67. -/
theorem test_subReg : runs (setup [(2, 1), (3, 2)]) 0x8235 (fun t => t.getV 2 = 0xFF && t.getV 0xF = 0) = true ∧
    runs (setup [(2, 5), (3, 5)]) 0x8235 (fun t => t.getV 2 = 0 && t.getV 0xF = 1) = true := by decide
/-- V70, V71. -/
theorem test_subnReg : runs (setup [(1, 0x10), (2, 0x30)]) 0x8127 (fun t => t.getV 1 = 0x20 && t.getV 0xF = 1) = true ∧
    runs (setup [(1, 2), (2, 1)]) 0x8127 (fun t => t.getV 1 = 0xFF && t.getV 0xF = 0) = true := by decide
/-- V75 at the default, V79. -/
theorem test_shr : runs (setup [(4, 0xFF), (5, 2)]) 0x8456 (fun t => t.getV 4 = 0x7F && t.getV 0xF = 1) = true ∧
    runs (setup [(0xF, 3)]) 0x8F06 (fun t => t.getV 0xF = 1) = true := by decide
/-- V76, V77. -/
theorem test_shl : runs (setup [(4, 0x81)]) 0x840E (fun t => t.getV 4 = 2 && t.getV 0xF = 1) = true ∧
    runs (setup [(4, 0x7F)]) 0x840E (fun t => t.getV 4 = 0xFE && t.getV 0xF = 0) = true := by decide
/-- V75 and V78 at SHIFT_SRC = VY. -/
theorem test_shifts_vy : (((setup [(4, 0xFF), (5, 2)]).shiftRight { quirks with shiftSrc := .vy } 4 5).getV 4) = 1 ∧
    (((setup [(4, 1), (5, 0x80)]).shiftLeft { quirks with shiftSrc := .vy } 4 5).getV 0xF) = 1 := by decide
/-- V90. -/
theorem test_ldI : runs State.reset 0xA300 (fun t => t.i = 0x300 && t.pc = 0x202) = true := by decide
/-- V92, V93: no fault, VF unchanged. -/
theorem test_addIVx : runs (setup [(0, 1)] 0xFFF) 0xF01E (fun t => t.i = 0x1000 && t.getV 0xF = 0) = true ∧
    runs (setup [(0, 1)] 0xFFFF) 0xF01E (fun t => t.i = 0) = true := by decide
/-- V110. -/
theorem test_ldFVx : runs (setup [(0, 0x1A)]) 0xF029 (fun t => t.i = 0x32) = true := by decide
/-- V101. -/
theorem test_ldBVx : runs (setup [(0, 0xFE)] 0x300) 0xF033
    (fun t => t.mem.read 0x300 = 2 && t.mem.read 0x301 = 5 && t.mem.read 0x302 = 4 && t.i = 0x300) = true := by decide
/-- V107. -/
theorem test_ldBVx_bounds : faults (setup [] 0xFFE) 0xF033 .memBounds = true := by decide
/-- V94. -/
theorem test_storeRegs : runs (setup [(0, 1), (1, 2), (2, 3)] 0x300) 0xF255
    (fun t => t.mem.read 0x300 = 1 && t.mem.read 0x302 = 3 && t.mem.read 0x303 = 0 && t.i = 0x300) = true := by decide
/-- V94 at the other two values of LDST_I_INCREMENT, V98. -/
theorem test_storeRegs_edges : indexAfterLdst { quirks with ldstIncrement := .xPlusOne } 0x300 2 = 0x303 ∧
    indexAfterLdst { quirks with ldstIncrement := .x } 0x300 2 = 0x302 ∧
    faults (setup [] 0xFF1) 0xFF55 .memBounds = true := by decide
/-- V111: glyph 0 read as data. -/
theorem test_loadRegs : runs State.reset 0xF465 (fun t => t.getV 0 = 0xF0 && t.getV 1 = 0x90 && t.getV 4 = 0xF0 &&
    t.getV 5 = 0 && t.i = 0) = true := by decide
/-- V96, V97. -/
theorem test_loadRegs_edges : runs (setup [(0, 7)] 0xFFF) 0xF065 (fun t => t.getV 0 = 0 && t.pc = 0x202) = true ∧
    faults (setup [] 0xFFF) 0xF165 .memBounds = true := by decide
/-- V121: whatever the free byte is. -/
theorem test_rnd_masked : runs (setup [(3, 9)]) 0xC300 (fun t => t.draws = 1 && t.pc = 0x202) = true := by decide
/-- V120, V122 on given bytes. -/
theorem test_setMasked : ((setup []).setMasked 3 0xA7 0x0F).getV 3 = 7 ∧ ((setup []).setMasked 3 0x5C 0xFF).getV 3 = 0x5C := by
  decide
/-- V133's start after 00E0. -/
theorem test_cls : runs (State.reset.setFb (State.reset.fb.flip 63 31)) 0x00E0
    (fun t => t.fb.pixel 63 31 = false && t.pc = 0x202) = true := by decide
/-- V126: glyph 0 across both edges. -/
theorem test_drw_wraps : runs (setup [(0xA, 0x3E), (0xB, 0x1E)]) 0xDAB5
    (fun t => t.fb.pixel 62 30 && t.fb.pixel 1 30 && t.fb.pixel 1 31 && !t.fb.pixel 0 31 && t.fb.pixel 1 2 &&
      t.getV 0xF = 0) = true := by decide
/-- V133. -/
theorem test_drw_collides : runs { (setup [] 0x300).setFb (State.reset.fb.flip 0 0) with mem := [(0x300, 0x80)] } 0xD011
    (fun t => !t.fb.pixel 0 0 && t.getV 0xF = 1 && t.pc = 0x202) = true := by decide
/-- V130, V131. -/
theorem test_drw_bounds : faults (setup [] 0xFFB) 0xD006 .memBounds = true ∧
    runs (setup [] 0x1000) 0xD000 (fun t => t.getV 0xF = 0 && t.pc = 0x202) = true := by decide
/-- V144. -/
theorem test_skp_range : faults (setup [(1, 0x10)]) 0xE19E .keyRange = true := by decide
/-- V145. -/
theorem test_sknp_range : faults (setup [(1, 0xFF)]) 0xE1A1 .keyRange = true := by decide
/-- V140 to V143: the two skips, and the answer, on key 0xA. -/
theorem test_key_skips : step ((setup [(5, 0xA)]).withFetchWord 16 0xE59E) =
      exec (.skp 5) (((setup [(5, 0xA)]).withFetchWord 16 0xE59E).setSchedule []) ∧
    step ((setup [(5, 0xA)]).withFetchWord 16 0xE5A1) =
      exec (.sknp 5) (((setup [(5, 0xA)]).withFetchWord 16 0xE5A1).setSchedule []) ∧
    keyOf 0x0A = 0xA := ⟨rfl, rfl, by decide⟩
/-- V146. -/
theorem test_ldVxK : runs State.reset 0xF30A (fun t => t.status = .waitKey && t.waitReg = 3 && t.pc = 0x200) = true := by
  decide
/-- V147. -/
theorem test_key_event : ((State.reset.suspend 3).keyEvent 7).getV 3 = 7 ∧ ((State.reset.suspend 3).keyEvent 7).pc = 0x202 ∧
    ((State.reset.suspend 3).keyEvent 7).status = .run := by decide
/-- D16: a press outside WAIT_KEY has no effect. -/
theorem test_key_event_ignored : State.reset.keyEvent 7 = State.reset := by decide
/-- V150. -/
theorem test_ldVxDt : runs (State.reset.setDt 0x3C) 0xF107 (fun t => t.getV 1 = 0x3C && t.dt = 0x3C) = true := by decide
/-- V151. -/
theorem test_ldDtVx : runs (setup [(0, 60)]) 0xF015 (fun t => t.dt = 60 && t.st = 0) = true := by decide
/-- V152. -/
theorem test_ldStVx : runs (setup [(0, 5)]) 0xF018 (fun t => t.st = 5 && t.dt = 0) = true := by decide
/-- S9, V154, V155. -/
theorem test_ticks : tick 3 = 2 ∧ tick 1 = 0 ∧ tick 0 = 0 ∧ ((State.reset.setStatus .halted).setDt 2).tickDt.dt = 1 := by
  decide
/-- S12. -/
theorem test_load : (State.reset.load 0x200 [0xAB, 0xCD]).2 = 2 ∧ (State.reset.load 0x200 [0xAB, 0xCD]).1.mem.read 0x201 = 0xCD ∧
    (State.reset.load 0xFFF [0xAB, 0xCD]).2 = 1 := by decide
/-- V26: jumping into the font is a decode error of glyph 0's first word. -/
theorem test_fetch_font : (State.reset.setPc 0).fetch = 0xF090 ∧ decode 0xF090 = .error .miscSubOpcode := by decide
/-- R195's second law read literally would make this second draw collide: the sprite 0x80 on a set pixel clears it, so the
second draw meets a clear pixel and answers false, as the pseudocode of R193 computes (log 17). -/
theorem test_second_draw_need_not_collide :
    ((State.reset.fb.flip 0 0).draw 0 0 [0x80]).2 = true ∧
    ((((State.reset.fb.flip 0 0).draw 0 0 [0x80]).1).draw 0 0 [0x80]).2 = false := by decide
/-- R242: a tick settled before the CPU's move comes first. -/
theorem test_settled_order : (performAll [.tickDt, .tickDt, .tickSt] ((setup []).setDt 3)).dt = 1 ∧
    (stepped (((setup []).setDt 3).setSchedule [.tickDt, .cpu])).dt = 2 ∧
    (stepped (((setup []).setDt 3).setSchedule [.tickDt, .cpu])).schedule = [.cpu] := by decide
/-- R243: the ticks that end a round are the DT agent's and the ST agent's in turn. -/
theorem test_closing_ticks : closingTick 0 = .tickDt ∧ closingTick 1 = .tickSt ∧ closingTick 2 = .tickDt := by decide
/-- `decodeTableWord` and `withFetchWord` put the high byte first. -/
theorem test_table_word : decodeTableWord 16 0x6A02 = some (.ldByte 0xA 2) ∧ decodeTableWord 16 0x8128 = none ∧
    (State.reset.withFetchWord 16 0x6A02).mem.read 0x200 = 0x6A := by decide

/-! Witnesses -/

/-- A running core with `word` at `pc`, the CPU to move next. -/
def at_ (pc word : Word) : State :=
  ((State.reset.setPc pc).setMem (State.reset.mem.writeBytes pc.toNat (bytesOf word))).setSchedule [.cpu]

/-- A core stopped by run-off-end. -/
def halted : State := ((State.reset.setPc 0xFFF).setStatus .halted).setSchedule [.cpu]

/-- A core stopped by an illegal word. -/
def stopped : State := State.reset.raise .decodeError 0

/-- A core waiting in `F30A`. -/
def waiting : State := (at_ 0x200 0xF30A).suspend 3

theorem witness_DecodeOfEncode : (Instr.jp 0xFFF).wellFormed = true ∧ (Instr.drw 15 0 15).wellFormed = true := by decide

theorem witness_EncodeOfDecode : decode 0xDFFF = .ok (.drw 15 15 15) := by decide

theorem witness_StepRunsTheDecodedInstruction :
    (let s := at_ 0xFFE 0x6A02
     s.status = .run ∧ s.pc.toNat ≤ 0xFFE ∧ decode s.fetch = .ok (.ldByte 0xA 2) ∧ (nextMove s).1 = .cpu) ∧
    (let s := (at_ 0xFFE 0x6A02).setSchedule [.cpu, .tickDt]
     s.status = .run ∧ s.pc.toNat ≤ 0xFFE ∧ decode s.fetch = .ok (.ldByte 0xA 2) ∧ s.schedule = .cpu :: [.tickDt]) := by
  decide

theorem witness_FetchTakesTheLowerAddressAsHighByte :
    (at_ 0xFFF 0).status = .run ∧ 0xFFF < (at_ 0xFFF 0).pc.toNat + 1 := by decide

theorem witness_FetchBeyondMemoryHalts : (at_ 0xFFF 0).status = .run ∧ 0xFFF ≤ (at_ 0xFFF 0).pc.toNat := by decide

theorem witness_OnlyRunOffEndHalts :
    (∃ t, (at_ 0xFFF 0).status ≠ .halted ∧ step (at_ 0xFFF 0) = .next t ∧ t.status = .halted) ∧
    (∃ t, (at_ 0xFFE 0x6A02).status ≠ .halted ∧ step (at_ 0xFFE 0x6A02) = .next t ∧ t.status ≠ .halted) :=
  ⟨⟨_, by decide, rfl, rfl⟩, ⟨_, by decide, rfl, by decide⟩⟩

theorem witness_StoppedCoreIgnoresCycles :
    halted.status = .halted ∧ stopped.status = .fault ∧ waiting.status = .waitKey := by decide

theorem witness_TerminalStatesAreNeverLeft :
    (∃ t, halted.status = .halted ∧ step halted = .next t) ∧
    (∃ t, stopped.status = .fault ∧ step (stopped.setSchedule [.press 7]) = .next t) :=
  ⟨⟨_, rfl, rfl⟩, ⟨_, rfl, rfl⟩⟩

/-- Also the witness of InstructionsChangeOnlyWhatTheirRulesWrite: an instruction that may fault, on its boundary. -/
theorem witness_PcFollowsTheControlClass :
    ∃ t, exec (.storeRegs 0) (setup [] 0xFFF) = .next t ∧ faultOf (setup [] 0xFFF) (.storeRegs 0) = none :=
  ⟨_, rfl, by decide⟩

theorem witness_FaultsAreExactlyTheListed :
    ((at_ 0xFFE 0x8128).status = .run ∧ (at_ 0xFFE 0x8128).pc.toNat ≤ 0xFFE ∧
      decode (at_ 0xFFE 0x8128).fetch = .error .aluSubOpcode) ∧
    faultOf { State.reset with sp := 16 } (.call 0) = some .stackOverflow ∧ faultOf State.reset .ret = some .stackUnderflow ∧
    faultOf (setup [] 0xFFE) (.ldBVx 0) = some .memBounds ∧ faultOf (setup [] 0xFF1) (.storeRegs 15) = some .memBounds ∧
    faultOf (setup [] 0x1000) (.loadRegs 0) = some .memBounds ∧ faultOf (setup [] 0xFFB) (.drw 0 0 6) = some .memBounds ∧
    faultOf (setup [(1, 0x10)]) (.skp 1) = some .keyRange ∧ faultOf (setup [(1, 0x10)]) (.sknp 1) = some .keyRange ∧
    faultOf { State.reset with sp := 15 } (.call 0) = none ∧ faultOf (setup [] 0xFFD) (.ldBVx 0) = none ∧
    faultOf (setup [] 0xFFB) (.drw 0 0 5) = none ∧ faultOf (setup [] 0x1000) (.drw 0 0 0) = none ∧
    faultOf (setup [(1, 0x0F)]) (.skp 1) = none := by decide

theorem witness_FaultsArePrecise :
    ∃ t, (at_ 0xFFE 0x00EE).status = .run ∧ cycle (at_ 0xFFE 0x00EE) = .next t ∧ t.status = .fault :=
  ⟨_, rfl, rfl, rfl⟩

theorem witness_JumpWithOffsetAddsTheRegister :
    ({ quirks with jumpOffsetReg := .vx } : Quirks).jumpOffsetReg = .vx ∧ (15 : Reg).val = (0xFFF : BitVec 12).toNat / 256 := by
  decide

theorem witness_CallPushesItsOwnAddress :
    ({ State.reset with sp := 15 } : State).sp.val < 16 ∧ ({ State.reset with sp := 16 } : State).sp.val = 16 := by decide

theorem witness_ReturnResumesPastTheCall :
    ({ State.reset with sp := 16 } : State).sp.val = (15 : Fin 16).val + 1 ∧
    ({ State.reset with sp := 1 } : State).sp.val = (0 : Fin 16).val + 1 ∧ State.reset.sp.val = 0 := by decide

theorem witness_CallThenReturnRestores :
    ∃ t, ({ State.reset with sp := 15 } : State).sp.val < 16 ∧
      exec (.call 0x400) { State.reset with sp := 15 } = .next t ∧ (t.setI 7).sp = t.sp ∧
      ∀ k : Fin 16, k.val < t.sp.val → (t.setI 7).stack[k] = t.stack[k] :=
  ⟨_, by decide, rfl, rfl, fun _ _ => rfl⟩

theorem witness_RegisterSkipsAdvanceByFourOrTwo : (1 : Nibble) ≠ 0 ∧ (15 : Nibble) ≠ 0 := by decide

theorem witness_BitwiseOperationsActOnEachBit :
    ({ quirks with logicVfReset := true } : Quirks).logicVfReset = true ∧ (14 : Reg) ≠ vF := by decide

theorem witness_AddAndSubtractWrapAndSetTheFlag : (14 : Reg) ≠ vF := by decide

theorem witness_ShiftsByOneCaptureTheBitPutOut :
    (14 : Reg) ≠ vF ∧ ({ quirks with shiftSrc := .vy } : Quirks).shiftSrc = .vy := by decide

/-- Also the witness of LoadReadsTheLowRegisters. -/
theorem witness_StoreWritesTheLowRegisters :
    (setup [] 0xFF0).i.toNat + (15 : Reg).val ≤ 0xFFF ∧ (setup [] 0xFF1).i.toNat + (15 : Reg).val > 0xFFF ∧
    (15 : Reg).val ≤ (15 : Reg).val := by decide

theorem witness_BcdStoresTheDecimalDigits :
    (setup [] 0xFFD).i.toNat + 2 ≤ 0xFFF ∧ (setup [] 0xFFE).i.toNat + 2 > 0xFFF := by decide

theorem witness_LoadAfterStoreRestoresTheRegisters :
    ∃ t, (setup [] 0xFF0).i.toNat + (15 : Reg).val ≤ 0xFFF ∧ exec (.storeRegs 15) (setup [] 0xFF0) = .next t ∧
      (t.setV 3 9).mem = t.mem ∧ (t.setV 3 9).i = (setup [] 0xFF0).i :=
  ⟨_, by decide, rfl, rfl, rfl⟩

theorem witness_StoredBytesAreFetchedNext :
    ∃ t, (setup [] 0x202).i.toNat + (1 : Reg).val ≤ 0xFFF ∧ exec (.storeRegs 1) (setup [] 0x202) = .next t ∧
      (1 : Reg).val = (0 : Reg).val + 1 ∧ (1 : Reg).val ≤ (1 : Reg).val ∧
      ((setup [] 0x202).pc + 2).toNat = (setup [] 0x202).i.toNat + (0 : Reg).val :=
  ⟨_, by decide, rfl, by decide, by decide, by decide⟩

theorem witness_EqualMemoriesAreEqualLists :
    let m : Memory := [(0x000, 0xAA), (0xFFF, 1)]
    let n := (State.reset.mem.write 0xFFF 1).write 0x000 0xAA
    m.wf ∧ n.wf ∧ ∀ a, m.read a = n.read a :=
  ⟨by decide, by decide, fun _ => rfl⟩

theorem witness_RandomByteIsMasked : (0x0F : Byte).getLsbD 4 = false := by decide

theorem witness_DrawXorsTheWrappedSprite :
    ((0 : Nibble).toNat = 0 ∨ (setup [] 0x1000).i.toNat + (0 : Nibble).toNat - 1 ≤ 0xFFF) ∧
    ((5 : Nibble).toNat = 0 ∨ (setup [] 0xFFB).i.toNat + (5 : Nibble).toNat - 1 ≤ 0xFFF) ∧
    ((6 : Nibble).toNat ≥ 1 ∧ (setup [] 0xFFB).i.toNat + (6 : Nibble).toNat - 1 > 0xFFF) ∧
    7 < 8 ∧ 4 < (5 : Nibble).toNat := by decide

/-- A pixel that no bit of a one-row sprite at (0, 0) covers. -/
theorem witness_DrawXorsTheWrappedSprite_outside :
    ∀ c r, c < 8 → r < (1 : Nibble).toNat → ¬ (8 % 64 = (0 % 64 + c) % 64 ∧ 0 % 32 = (0 % 32 + r) % 32) := by
  intro c r hc _
  omega

theorem witness_DrawingTwiceRestores :
    ([0xF0, 0x90] : List Byte).length ≤ 15 ∧ (State.reset.fb.draw 62 31 [0xF0, 0x90]).2 = false ∧
    (State.reset.fb.draw 62 31 [0xF0, 0x90]).1.pixel 1 31 ≠ State.reset.fb.pixel 1 31 := by decide

theorem witness_KeySkipsFollowTheAnswer :
    ((setup [(5, 0x0F)]).getV 5).toNat = (0xF : Nibble).toNat ∧ ((setup [(5, 0x10)]).getV 5).toNat > 0x0F := by decide

theorem witness_KeyWaitSuspendsAndAPressResumes :
    (waiting.status = .waitKey ∧ (nextMove (waiting.setSchedule [.press 7])).1 = .press 7) ∧
    ((at_ 0x200 0xF30A).status ≠ .waitKey ∧ (nextMove ((at_ 0x200 0xF30A).setSchedule [.press 7])).1 = .press 7) ∧
    (halted.status ≠ .waitKey ∧ (nextMove (halted.setSchedule [.press 7])).1 = .press 7) := by decide

theorem witness_OnlyAPressEndsTheWait :
    (∃ t, waiting.status = .waitKey ∧ step waiting = .next t) ∧
    (∃ t, waiting.status = .waitKey ∧ step (waiting.setSchedule [.press 7]) = .next t ∧ t.status = .run) :=
  ⟨⟨_, rfl, rfl⟩, ⟨_, rfl, rfl, rfl⟩⟩

theorem witness_OnlyTheKeyWaitSuspends :
    ∃ t, (at_ 0x200 0xF30A).status ≠ .waitKey ∧ step (at_ 0x200 0xF30A) = .next t ∧ t.status = .waitKey :=
  ⟨_, by decide, rfl, rfl⟩

theorem witness_TicksCountDownToZero :
    (nextMove (State.reset.setSchedule [.tickDt])).1 = .tickDt ∧ (nextMove (State.reset.setSchedule [.tickSt])).1 = .tickSt := by
  decide

theorem witness_TimerReadAfterSetAndTicks : ∃ t, exec (.ldDtVx 0) (setup [(0, 60)]) = .next t := ⟨_, rfl⟩

/-- Also the witness of NoInstructionReadsSt. -/
theorem witness_DtTicksCommuteWithOtherInstructions :
    ∃ t, (∀ x, Instr.ldStVx 0 ≠ .ldVxDt x) ∧ (∀ x, Instr.ldStVx 0 ≠ .ldDtVx x) ∧
      exec (.ldStVx 0) (setup [(0, 60)]) = .next t :=
  ⟨_, by decide, by decide, rfl⟩

/-- A core that runs in the loop 1200 at 0x200. -/
def looping : State := at_ 0x200 0x1200

/-- The loop is never left, whatever the order of the moves. -/
theorem looping_stays (n : Nat) (b c : Byte) :
    let s := after n ((looping.setDt b).setSt c)
    s.status = .run ∧ s.pc = 0x200 ∧ s.mem = looping.mem := by
  refine after_keeps (P := fun s => s.status = .run ∧ s.pc = 0x200 ∧ s.mem = looping.mem) ?_ n ⟨rfl, rfl, rfl⟩
  rintro s ⟨hr, hp, hm⟩
  obtain ⟨rest, r, e⟩ := nextMove_state s
  have hd : decode (s.setOrder rest r).fetch = .ok (.jp 0x200) := by
    rw [State.setOrder_fetch, State.fetch, hp, hm]; decide
  have ho : (s.setOrder rest r).runsOffEnd = false := by rw [State.runsOffEnd, State.setOrder_pc, hp]; decide
  have hc : cycle (s.setOrder rest r) = .next ((s.setOrder rest r).setPc 0x200) := by
    have h1 : cycle (s.setOrder rest r) = cycleRun (s.setOrder rest r) := by simp only [cycle, State.setOrder_status, hr]
    rw [h1, cycleRun, ho, hd]; rfl
  unfold stepped step
  rw [e]
  cases (nextMove s).1 <;> simp [nextOr, perform, hc, State.keyEvent, State.tickDt, State.tickSt, hr, hp, hm]

/-- A running core that sets no timer, whatever the order of the moves. -/
theorem witness_TimersRunDownWithoutSets :
    (∀ n x, ¬ runsNext (after n ((looping.setDt 2).setSt 3)) (.ldDtVx x)) ∧
      ∀ n x, ¬ runsNext (after n ((looping.setDt 2).setSt 3)) (.ldStVx x) := by
  have fetched : ∀ n, decode (after n ((looping.setDt 2).setSt 3)).fetch = .ok (.jp 0x200) := by
    intro n
    obtain ⟨-, hp, hm⟩ := looping_stays n 2 3
    rw [State.fetch, hp, hm]; decide
  refine ⟨fun n x h => ?_, fun n x h => ?_⟩ <;>
  · have := h.2.2.2
    rw [fetched n] at this
    cases this

/-- A halted core runs no instruction, so none that sets a timer (log 14: its timers tick on). -/
theorem witness_TimersRunDownWithoutSets_halted :
    (∀ n x, ¬ runsNext (after n (halted.setDt 2)) (.ldDtVx x)) ∧
      ∀ n x, ¬ runsNext (after n (halted.setSt 2)) (.ldStVx x) := by
  have stays : ∀ s : State, s.status = .halted → (stepped s).status = .halted := by
    intro s h
    obtain ⟨rest, r, e⟩ := nextMove_state s
    unfold stepped step
    rw [e]
    cases (nextMove s).1 <;> simp [nextOr, perform, cycle, State.keyEvent, State.tickDt, State.tickSt, h]
  have never : ∀ n (s : State) i, s.status = .halted → ¬ runsNext (after n s) i := by
    intro n s i h hi
    have := hi.2.1
    rw [after_keeps stays n h] at this
    cases this
  exact ⟨fun n x => never n _ _ rfl, fun n x => never n _ _ rfl⟩

theorem witness_ResetLeavesTheListedState : 15 < 16 ∧ 4 < 5 ∧ 0x50 ≤ 0x50 := by decide

theorem witness_LoadCopiesWhatFits : 1 < (State.reset.load 0xFFE [1, 2, 3]).2 := by decide

theorem witness_BootedProgramIsFetchedFirst : decode ((0x6A : Byte) ++ (0x02 : Byte)) = .ok (.ldByte 0xA 2) := by decide

theorem halted_inv : halted.Inv :=
  ⟨by decide, by decide, by decide, by decide, by decide, by decide, by decide⟩

theorem stopped_inv : stopped.Inv :=
  ⟨by decide, by decide, by decide, by decide, by decide, by decide, by decide⟩

theorem witness_EveryStepKeepsTheInvariant :
    ∃ t, (waiting.setSchedule [.press 7]).Inv ∧ step (waiting.setSchedule [.press 7]) = .next t ∧ t.status = .run :=
  ⟨_, ⟨by decide, by decide, by decide, by decide, by decide, by decide, by decide⟩, rfl, rfl⟩

theorem witness_RunsEndHaltedOrWithARecordedFault :
    halted.Inv ∧ runLoop 1 halted = .completed halted ∧ stopped.Inv ∧ runLoop 1 stopped = .failed stopped :=
  ⟨halted_inv, by decide, stopped_inv, by decide⟩

end Sys2Proof.Tests
end

section
/-! PROOFS. The scope (00_scope.md): every move of every agent answers a next state, and the agents move in the order settled. -/

namespace Sys2Proof.Machine

/-! Every move answers a next state -/

/-- A checked access answers a next state, inside memory and beyond it (R66, R173). -/
theorem State.ifInMemory_answers (s t : State) (count : Nat) (w : Word) : ∃ u, s.ifInMemory count w t = .next u := by
  unfold State.ifInMemory
  split <;> exact ⟨_, rfl⟩

/-- Every instruction answers a next state: the fault conditions of R231 are next states too (R40; log 5). -/
theorem exec_answers (i : Instr) (s : State) : ∃ t, exec i s = .next t := by
  cases i
  case call addr =>
    simp only [exec, execCall]
    split <;> exact ⟨_, rfl⟩
  case ret =>
    simp only [exec, execRet]
    split <;> exact ⟨_, rfl⟩
  case skp x =>
    simp only [exec, execSkp]
    split <;> exact ⟨_, rfl⟩
  case sknp x =>
    simp only [exec, execSknp]
    split <;> exact ⟨_, rfl⟩
  case drw | ldBVx | storeRegs | loadRegs => exact State.ifInMemory_answers _ _ _ _
  all_goals exact ⟨_, rfl⟩

/-- A CPU step of a running core answers a next state: it halts, runs an instruction, or faults on an illegal word (R37). -/
theorem cycleRun_answers (s : State) : ∃ t, cycleRun s = .next t := by
  unfold cycleRun
  split
  · exact ⟨_, rfl⟩
  · split
    · exact exec_answers _ s
    · exact ⟨_, rfl⟩

/-- A CPU step answers a next state in every Status (R38). -/
theorem cycle_answers (s : State) : ∃ t, cycle s = .next t := by
  unfold cycle
  cases s.status
  case run => exact cycleRun_answers s
  all_goals exact ⟨s, rfl⟩

/-- Every move of every agent answers a next state. -/
theorem perform_answers (m : Move) (s : State) : ∃ t, perform m s = .next t := by
  cases m
  case cpu => exact cycle_answers s
  all_goals exact ⟨_, rfl⟩

/-- The state after a given move is the one the move answers. -/
theorem perform_eq_performed (m : Move) (s : State) : perform m s = .next (performed m s) := by
  obtain ⟨t, h⟩ := perform_answers m s
  rw [performed, h, nextOr]

/-! The order of the moves -/

/-- A given move takes no account of the order of moves. -/
theorem performed_setOrder (m : Move) (s : State) (ms : List Move) (r : Nat) :
    performed m (s.setOrder ms r) = (performed m s).setOrder ms r := by
  rw [performed, perform_order m ms r (perform_eq_performed m s), nextOr]

/-- A given move begins no round: `s` is itself with its own order of moves, so what it becomes has that order too. -/
@[simp] theorem performed_rounds (m : Move) (s : State) : (performed m s).rounds = s.rounds := by
  have h : performed m s = (performed m s).setOrder s.schedule s.rounds := performed_setOrder m s s.schedule s.rounds
  rw [h, State.setOrder_rounds]

/-- A given move takes no account of the moves still to come. -/
theorem performed_setSchedule (m : Move) (s : State) (ms : List Move) :
    performed m (s.setSchedule ms) = (performed m s).setSchedule ms := by
  calc performed m (s.setSchedule ms)
      = (performed m s).setOrder ms s.rounds := performed_setOrder m s ms s.rounds
    _ = (performed m s).setOrder ms (performed m s).rounds := by rw [performed_rounds]

/-- A step is the given move that comes next, on the state with it taken off. -/
theorem stepped_eq_performed (s : State) : stepped s = performed (nextMove s).1 (nextMove s).2 := by
  rw [stepped, step, perform_eq_performed, nextOr]

/-- With a move settled first, the step is that move, and the moves after it stay settled (R17; log 1). -/
theorem stepped_setSchedule_cons (m : Move) (ms : List Move) (s : State) :
    stepped (s.setSchedule (m :: ms)) = (performed m s).setSchedule ms := by
  calc stepped (s.setSchedule (m :: ms))
      = performed m (s.setSchedule ms) := by rw [stepped_eq_performed, nextMove_cons _ m ms rfl]; rfl
    _ = (performed m s).setSchedule ms := performed_setSchedule m s ms

/-- Settles O53, by induction on the list of settled moves: each step takes the first one off and makes that move. -/
theorem agentsMoveInAnyOrder : Obligations.AgentsMoveInAnyOrder := by
  intro ms rest s
  induction ms generalizing s with
  | nil => rfl
  | cons m ms ih =>
    calc after (ms.length + 1) (s.setSchedule (m :: (ms ++ rest)))
        = after ms.length ((performed m s).setSchedule (ms ++ rest)) := by rw [after, stepped_setSchedule_cons]
      _ = (performAll ms (performed m s)).setSchedule rest := ih (performed m s)

end Sys2Proof.Machine
end

section
/-! PROOFS. Decoding reads back an encoding (30_encoding.md R95, R96): the word an instruction was decoded from
is its own. -/

namespace Sys2Proof

/-- Format A puts an address read from nibbles back in its place, under the primary nibble read. -/
theorem formatA_eq {f : Nibbles} {op : Nibble} (h0 : f.n0.toNat = op.toNat) : formatA op f.addr = f := by
  rw [← BitVec.eq_of_toNat_eq h0, formatA_of_addr]

/-- Format XNN puts X and the low byte read from nibbles back in their places. -/
theorem formatXNN_eq {f : Nibbles} {op : Nibble} {nn : Byte} (h0 : f.n0.toNat = op.toNat) (hn : f.nn.toNat = nn.toNat) :
    formatXNN op f.x nn = f := by
  rw [← BitVec.eq_of_toNat_eq h0, ← BitVec.eq_of_toNat_eq hn, formatXNN_of_fields]

/-- Format XYs puts X, Y and the last nibble read from nibbles back in their places. -/
theorem formatXY_eq {f : Nibbles} {op k : Nibble} (h0 : f.n0.toNat = op.toNat) (h3 : f.n3.toNat = k.toNat) :
    formatXY op f.x f.y k = f := by
  rw [← BitVec.eq_of_toNat_eq h0, ← BitVec.eq_of_toNat_eq h3, formatXY_of_fields]

/-- What 8XYs dispatches to has the nibbles dispatched, and is well formed. -/
theorem nibbles_of_dispatchAlu {f : Nibbles} {i : Instr} (h0 : f.n0.toNat = 0x8) (h : dispatchAlu f = .ok i) :
    i.nibbles = f ∧ i.wellFormed = true := by
  unfold dispatchAlu at h
  split at h <;> cases h
  all_goals exact ⟨formatXY_eq h0 ‹_›, rfl⟩

/-- What FXss dispatches to has the nibbles dispatched, and is well formed. -/
theorem nibbles_of_dispatchMisc {f : Nibbles} {i : Instr} (h0 : f.n0.toNat = 0xF) (h : dispatchMisc f = .ok i) :
    i.nibbles = f ∧ i.wellFormed = true := by
  unfold dispatchMisc at h
  split at h <;> cases h
  all_goals exact ⟨formatXNN_eq h0 ‹_›, rfl⟩

/-- An address read from nibbles is a value of NNN. -/
theorem fitsAddr_addr (f : Nibbles) : Word.fitsAddr f.addr = true := decide_eq_true f.addr_lt

/-- What any nibbles dispatch to has those nibbles, and is well formed. -/
theorem nibbles_of_dispatch {f : Nibbles} {i : Instr} (h : dispatch f = .ok i) : i.nibbles = f ∧ i.wellFormed = true := by
  unfold dispatch at h
  split at h
  case h_1 => -- 00E0, 00EE
    split at h
    · cases h; exact ⟨Eq.symm ‹_›, rfl⟩
    · split at h <;> cases h
      exact ⟨Eq.symm ‹_›, rfl⟩
  case h_2 | h_3 | h_11 | h_12 => -- 1NNN, 2NNN, ANNN, BNNN
    cases h
    exact ⟨formatA_eq ‹_›, fitsAddr_addr f⟩
  case h_4 | h_5 | h_7 | h_8 | h_13 => -- 3XNN, 4XNN, 6XNN, 7XNN, CXNN
    cases h
    exact ⟨formatXNN_eq ‹_› rfl, rfl⟩
  case h_6 | h_10 => -- 5XY0, 9XY0
    split at h <;> cases h
    exact ⟨formatXY_eq ‹_› (congrArg BitVec.toNat ‹f.n3 = 0›), rfl⟩
  case h_9 => -- 8XYs
    exact nibbles_of_dispatchAlu ‹_› h
  case h_14 => -- DXYN
    cases h
    refine ⟨formatXY_eq ‹_› ?_, decide_eq_true f.n3.isLt⟩
    rw [Nibbles.rows, BitVec.ofNat_toNat, BitVec.setWidth_eq]
  case h_15 => -- EX9E, EXA1
    split at h
    · cases h; exact ⟨formatXNN_eq ‹_› (congrArg BitVec.toNat ‹f.nn = 0x9E›), rfl⟩
    · split at h <;> cases h
      exact ⟨formatXNN_eq ‹_› (congrArg BitVec.toNat ‹f.nn = 0xA1›), rfl⟩
  case h_16 => -- FXss
    have hlt : f.n0.toNat < 16 := f.n0.isLt
    have h0 : f.n0.toNat = 0xF := by interval_cases f.n0.toNat <;> trivial
    exact nibbles_of_dispatchMisc h0 h

/-- The word an instruction was decoded from is its own word (R96; log 6). -/
theorem encode_of_decode {w : Word} {i : Instr} (h : decode w = .ok i) : encode i = w := by
  rw [encode, (nibbles_of_dispatch h).1, joinNibbles_splitWord]

/-- A decoded instruction has an encoding (R93). -/
theorem wellFormed_of_decode {w : Word} {i : Instr} (h : decode w = .ok i) : i.wellFormed = true :=
  (nibbles_of_dispatch h).2

end Sys2Proof
end

section
/-! PROOFS. The frame of each operation on the state: what it leaves as it was (R22 to R35, R72). -/

namespace Sys2Proof.Machine

namespace Frame
variable {may : May} {s t u : State}

/-- A state is as itself. -/
theorem refl (may : May) (s : State) : Frame may s s := by constructor <;> intros <;> rfl

/-- What neither of two steps changes, the two together do not. -/
theorem trans (h : Frame may s t) (k : Frame may t u) : Frame may s u where
  regs r m := (k.regs r m).trans (h.regs r m)
  index m := (k.index m).trans (h.index m)
  slots r m := (k.slots r m).trans (h.slots r m)
  sp m := (k.sp m).trans (h.sp m)
  dt m := (k.dt m).trans (h.dt m)
  st m := (k.st m).trans (h.st m)
  memory a m := (k.memory a m).trans (h.memory a m)
  pixels m x y := (k.pixels m x y).trans (h.pixels m x y)
  status m := (k.status m).trans (h.status m)
  faultCause m := (k.faultCause m).trans (h.faultCause m)
  faultInfo m := (k.faultInfo m).trans (h.faultInfo m)
  waitReg m := (k.waitReg m).trans (h.waitReg m)
  draws m := (k.draws m).trans (h.draws m)
  schedule m := (k.schedule m).trans (h.schedule m)
  rounds m := (k.rounds m).trans (h.rounds m)

/-- PC is in no frame. -/
theorem setPc (h : Frame may s t) (w : Word) : Frame may s (t.setPc w) := { h with }

/-- Replacing the registers by ones that differ only where they may change. -/
theorem replaceRegs (h : Frame may s t) (v : Vector Byte 16)
    (hv : ∀ r, may.regs r = false → ({ t with v } : State).getV r = t.getV r) : Frame may s { t with v } :=
  { h with regs r hr := (hv r hr).trans (h.regs r hr) }

/-- Writing a register that may change. -/
theorem setV (h : Frame may s t) {x : Reg} (b : Byte) (hx : may.regs x = true) : Frame may s (t.setV x b) :=
  h.replaceRegs _ fun r hr => State.getV_setV_other t b (by rintro rfl; exact nomatch hx.symm.trans hr)

/-- Writing a result and VF, where both may change. -/
theorem setVFlag (h : Frame may s t) {x : Reg} (b f : Byte) (hx : may.regs x = true) (hf : may.regs vF = true) :
    Frame may s (t.setVFlag x b f) :=
  (h.setV b hx).setV f hf

/-- Loading the low registers, where each of them may change. -/
theorem loadLow (h : Frame may s t) {x : Reg} (hx : ∀ r : Reg, r.val ≤ x.val → may.regs r = true) :
    Frame may s (t.loadLow x) :=
  h.replaceRegs _ fun r hr =>
    (t.loadLow_getV x r).trans (if_neg fun e => nomatch (hx r e).symm.trans hr)

/-- Writing I, where it may change. -/
theorem setI (h : Frame may s t) (w : Word) (hi : may.index = true) : Frame may s (t.setI w) :=
  { h with index hf := nomatch hi.symm.trans hf }

/-- Writing DT, where it may change. -/
theorem setDt (h : Frame may s t) (b : Byte) (hd : may.dt = true) : Frame may s (t.setDt b) :=
  { h with dt hf := nomatch hd.symm.trans hf }

/-- Writing ST, where it may change. -/
theorem setSt (h : Frame may s t) (b : Byte) (hs : may.st = true) : Frame may s (t.setSt b) :=
  { h with st hf := nomatch hs.symm.trans hf }

/-- Writing consecutive bytes that may change. -/
theorem writeBytes (h : Frame may s t) {a : Nat} {bs : List Byte}
    (hm : ∀ c, may.memory c = false → span a bs.length c = false) :
    Frame may s (t.setMem (t.mem.writeBytes a bs)) :=
  { h with
    memory c hc := by
      have hout : c < a ∨ a + bs.length ≤ c := by
        have := hm c hc
        simp only [span, Bool.and_eq_false_iff, decide_eq_false_iff_not] at this
        omega
      rw [State.setMem_mem, Memory.read_writeBytes_outside _ _ _ _ hout, h.memory c hc] }

/-- Writing the pixels, where they may change. -/
theorem setFb (h : Frame may s t) (f : Framebuffer) (hp : may.pixels = true) : Frame may s (t.setFb f) :=
  { h with pixels hf := nomatch hp.symm.trans hf }

/-- Writing Status, where it may change. -/
theorem setStatus (h : Frame may s t) (x : Status) (hs : may.status = true) : Frame may s (t.setStatus x) :=
  { h with status hf := nomatch hs.symm.trans hf }

/-- Suspending, where Status and WaitReg may change. -/
theorem suspend (h : Frame may s t) (x : Reg) (hs : may.status = true) (hw : may.waitReg = true) :
    Frame may s (t.suspend x) :=
  { h with
    status hf := nomatch hs.symm.trans hf
    waitReg hf := nomatch hw.symm.trans hf }

/-- Counting a draw, where the count may change. -/
theorem countDraw (h : Frame may s t) (hd : may.draws = true) : Frame may s t.countDraw :=
  { h with draws hf := nomatch hd.symm.trans hf }

/-- Settling another order of moves, where it may change. -/
theorem setOrder (h : Frame may s t) (ms : List Move) (r : Nat) (ho : may.order = true) : Frame may s (t.setOrder ms r) :=
  { h with
    schedule hf := nomatch ho.symm.trans hf
    rounds hf := nomatch ho.symm.trans hf }

/-- Pushing, where the free slot and SP may change. -/
theorem push (h : Frame may s t) {w : Word} (hp : t.push? w = some u) (hsp : may.sp = true)
    (hslot : ∀ k : Fin 16, k.val = t.sp.val → may.slots k = true) : Frame may s u := by
  obtain ⟨hfree, rfl⟩ := State.push?_cases hp
  exact { h with
    sp hf := nomatch hsp.symm.trans hf
    slots k hk := by
      have hne : t.sp.val ≠ k.val := fun e => nomatch (hslot k e.symm).symm.trans hk
      rw [← h.slots k hk]
      exact Vector.getElem_set_ne hfree k.isLt hne }

/-- Popping, where SP may change. -/
theorem pop (h : Frame may s t) {w : Word} (hp : t.pop? = some (w, u)) (hsp : may.sp = true) : Frame may s u := by
  obtain ⟨-, -, rfl⟩ := State.pop?_cases hp
  exact { h with sp hf := nomatch hsp.symm.trans hf }

end Frame

/-- Taking a move off changes only the order of moves (log 1). -/
theorem nextMove_frame {may : May} (s : State) (ho : may.order = true) : Frame may s (nextMove s).2 := by
  obtain ⟨ms, r, e⟩ := nextMove_state s
  rw [e]
  exact (Frame.refl may s).setOrder ms r ho

end Sys2Proof.Machine
end

section
/-! PROOFS. What an instruction does when it does not fault, said once (10_state.md R40, R41): where PC goes and what
stays as it was. -/

namespace Sys2Proof.Machine

/-- The state in which `i` retires: for an instruction with a fault condition its effect past the check, and for the others, which
have no check, what they answer. -/
def retired (s : State) (i : Instr) : State :=
  match i with
  | .call addr => ((s.push? s.pc).getD s).setPc addr
  | .ret => ((s.pop?.map Prod.snd).getD s).setPc (topOfStack s + 2)
  | .skp x => s.skipOnKey x true
  | .sknp x => s.skipOnKey x false
  | .drw x y n => (s.drawSprite x y n).advance
  | .ldBVx x => (s.storeDigits x).advance
  | .storeRegs x => (s.storeLow quirks x).advance
  | .loadRegs x => (s.loadLowThenIndex quirks x).advance
  | i => nextOr (exec i s) s

theorem retired_call (s : State) (addr : Word) :
    retired s (.call addr) = ((s.push? s.pc).getD s).setPc addr := rfl

theorem retired_ret (s : State) :
    retired s .ret = ((s.pop?.map Prod.snd).getD s).setPc (topOfStack s + 2) := rfl

/-- PC after a skip on a condition. -/
theorem State.skipIf_decide_pc (s : State) (p : Prop) [Decidable p] :
    (s.skipIf (decide p)).pc = if p then s.pc + 4 else s.pc + 2 := by
  simp only [State.skipIf_pc, decide_eq_true_eq]

/-- An instruction that does not fault retires. -/
theorem exec_of_no_fault {i : Instr} {s : State} (h : faultOf s i = none) : exec i s = .next (retired s i) := by
  cases i
  case call addr =>
    have free : s.sp.val < 16 := by
      simp only [faultOf, ite_eq_right_iff, reduceCtorEq, imp_false] at h
      have := s.sp.isLt
      omega
    rw [retired_call, State.push?_some s s.pc free]
    exact execCall_free addr s free
  case ret =>
    have frame : 0 < s.sp.val := by
      simp only [faultOf, ite_eq_right_iff, reduceCtorEq, imp_false] at h
      omega
    rw [retired_ret, State.pop?_some s frame]
    exact execRet_frame s frame
  case skp x | sknp x =>
    simp only [faultOf, ite_eq_right_iff, reduceCtorEq, imp_false] at h
    exact if_pos ((isKey_iff _).mpr (by omega))
  case drw | ldBVx | storeRegs | loadRegs =>
    simp only [faultOf, ite_eq_right_iff, reduceCtorEq, imp_false] at h
    exact State.ifInMemory_inside _ _ _ _ (by omega)
  all_goals rfl

/-- An instruction raises the fault of its condition, with its own word, or retires. -/
theorem exec_cases {i : Instr} {s t : State} (h : exec i s = .next t) :
    (∃ c, faultOf s i = some c ∧ t = s.raise c (encode i)) ∨ (faultOf s i = none ∧ t = retired s i) := by
  cases hf : faultOf s i with
  | some c => exact .inl ⟨c, rfl, Host.Outcome.next.inj (h.symm.trans (exec_of_fault i s c hf))⟩
  | none => exact .inr ⟨rfl, Host.Outcome.next.inj (h.symm.trans (exec_of_no_fault hf))⟩

/-- PC at retire is the one of the instruction's control class (R41). -/
theorem retired_pc (s : State) (i : Instr) : (retired s i).pc = nextPc s i := by
  cases i
  case seByte | seReg | skp => exact State.skipIf_decide_pc _ _
  case sneByte | sneReg => exact (State.skipIf_decide_pc _ _).trans (ite_not ..)
  case sknp x =>
    refine (State.skipIf_decide_pc _ _).trans ?_
    simp only [nextPc, State.isPressed, ← Bool.not_eq_true, ite_not, State.countDraw_pc]
  all_goals rfl

/-- An instruction that retires changes PC and what its own rule writes (R22, R23, R25 to R28, R31, R72). -/
theorem retired_frame (s : State) (i : Instr) : Frame (mayChange s i) s (retired s i) := by
  have same : Frame (mayChange s i) s s := .refl _ _
  cases i
  case call addr =>
    refine Frame.setPc ?_ _
    cases hp : s.push? s.pc with
    | none => exact same
    | some t => exact same.push hp rfl fun _ => decide_eq_true
  case ret =>
    refine Frame.setPc ?_ _
    cases hp : s.pop? with
    | none => exact same
    | some p => exact same.pop hp rfl
  case jp | jpV0 | seByte | sneByte | seReg | sneReg => exact same.setPc _
  case ldByte | addByte | ldReg | orReg | andReg | xorReg | ldVxDt => exact (same.setV _ (decide_eq_true rfl)).setPc _
  case addReg | subReg | subnReg | shr | shl =>
    exact (same.setVFlag _ _ (by simp [mayChange]) (by simp [mayChange])).setPc _
  case skp | sknp => exact (same.countDraw rfl).setPc _
  case rnd x nn => exact ((same.countDraw rfl).setV _ (decide_eq_true rfl)).setPc _
  case cls => exact (same.setFb _ rfl).setPc _
  case drw x y n => exact ((same.setFb _ rfl).setV _ (decide_eq_true rfl)).setPc _
  case ldVxK x => exact same.suspend x rfl rfl
  case ldDtVx => exact (same.setDt _ rfl).setPc _
  case ldStVx => exact (same.setSt _ rfl).setPc _
  case ldI | addIVx | ldFVx => exact (same.setI _ rfl).setPc _
  case ldBVx x => exact (same.writeBytes fun _ => id).setPc _
  case storeRegs x => exact (same.writeBytes fun c hc => by rw [lowRegs_length]; exact hc).setPc _
  case loadRegs x => exact (same.loadLow fun r => decide_eq_true).setPc _

/-- Settles O13: an instruction that does not fault retires, and PC at retire is the one of its class. -/
theorem pcFollowsTheControlClass : Obligations.PcFollowsTheControlClass := by
  intro i s t h hf
  obtain rfl := Host.Outcome.next.inj (h.symm.trans (exec_of_no_fault hf))
  exact retired_pc s i

/-- Settles O14: an instruction that does not fault retires, in the frame of its rule. -/
theorem instructionsChangeOnlyWhatTheirRulesWrite : Obligations.InstructionsChangeOnlyWhatTheirRulesWrite := by
  intro i s t h hf
  obtain rfl := Host.Outcome.next.inj (h.symm.trans (exec_of_no_fault hf))
  exact retired_frame s i

/-- Settles O12: no move of an agent and no instruction is without a next state (log 5). -/
theorem everyStepAnswersANextState : Obligations.EveryStepAnswersANextState :=
  ⟨fun s => perform_answers (nextMove s).1 (nextMove s).2, exec_answers⟩

/-! ST -/

theorem State.push?_setSt (s : State) (b : Byte) (w : Word) :
    (s.setSt b).push? w = (s.push? w).map fun t => t.setSt b := by
  by_cases free : s.sp.val < 16
  · rw [State.push?_some s w free]
    exact State.push?_some (s.setSt b) w free
  · have full : s.sp.val = 16 := Nat.le_antisymm (Nat.le_of_lt_succ s.sp.isLt) (Nat.not_lt.mp free)
    rw [State.push?_none s w full]
    exact State.push?_none (s.setSt b) w full

theorem State.pop?_setSt (s : State) (b : Byte) :
    (s.setSt b).pop? = s.pop?.map fun p => (p.1, p.2.setSt b) := by
  by_cases frame : 0 < s.sp.val
  · rw [State.pop?_some s frame]
    exact State.pop?_some (s.setSt b) frame
  · have empty : s.sp.val = 0 := Nat.eq_zero_of_not_pos frame
    rw [State.pop?_none s empty]
    exact State.pop?_none (s.setSt b) empty

/-- Another ST commutes with every retiring instruction but FX18, which overwrites it. -/
theorem retired_setSt {i : Instr} (s : State) (b : Byte) (hi : ∀ x, i ≠ .ldStVx x) :
    retired (s.setSt b) i = (retired s i).setSt b := by
  cases i
  case ldStVx x => exact absurd rfl (hi x)
  case call addr =>
    rw [retired_call, retired_call, State.push?_setSt, State.setSt_pc]
    cases s.push? s.pc <;> rfl
  case ret =>
    rw [retired_ret, retired_ret, State.pop?_setSt]
    cases s.pop? <;> rfl
  all_goals rfl

/-- Whether an instruction faults does not depend on ST. -/
theorem faultOf_setSt (s : State) (b : Byte) (i : Instr) : faultOf (s.setSt b) i = faultOf s i := by
  cases i <;> rfl

/-- Settles O46: another ST is kept through a fault and through every instruction but FX18, which sets it. -/
theorem noInstructionReadsSt : Obligations.NoInstructionReadsSt := by
  intro i s t b h
  rcases exec_cases h with ⟨c, hf, rfl⟩ | ⟨hf, rfl⟩
  · exact ⟨_, exec_of_fault i _ c ((faultOf_setSt s b i).trans hf), rfl, .inl rfl⟩
  · refine ⟨_, exec_of_no_fault ((faultOf_setSt s b i).trans hf), ?_⟩
    by_cases hi : ∃ x, i = .ldStVx x
    · obtain ⟨x, rfl⟩ := hi
      exact ⟨rfl, .inr ⟨x, rfl, rfl⟩⟩
    · rw [retired_setSt s b fun x e => hi ⟨x, e⟩]
      exact ⟨rfl, .inl rfl⟩

end Sys2Proof.Machine
end

section
/-! PROOFS. 10_state.md: the CPU step, HALTED, FAULT and WAIT_KEY, the key wait, and memory's canonical form. -/

namespace Sys2Proof.Machine

/-! The CPU step -/

/-- A CPU step of a running core. -/
theorem cycle_run {s : State} (h : s.status = .run) : cycle s = cycleRun s := by
  simp only [cycle, h]

/-- A CPU step of any other core changes nothing (R38, D32). -/
theorem cycle_stopped {s : State} (h : s.status ≠ .run) : cycle s = .next s := by
  unfold cycle
  split
  · exact absurd ‹_› h
  all_goals rfl

/-- A running core with a legal word at PC runs the instruction it decodes to (R37). -/
theorem cycleRun_decoded {s : State} {i : Instr} (hp : s.pc.toNat ≤ 0xFFE) (hd : decode s.fetch = .ok i) :
    cycleRun s = exec i s := by
  have fetches : ¬ s.runsOffEnd = true := by
    rw [State.runsOffEnd_iff]
    omega
  rw [cycleRun, if_neg fetches, hd]

@[simp] theorem nextMove_pc (s : State) : (nextMove s).2.pc = s.pc := by
  obtain ⟨_, _, e⟩ := nextMove_state s
  rw [e, State.setOrder_pc]

@[simp] theorem nextMove_status (s : State) : (nextMove s).2.status = s.status := by
  obtain ⟨_, _, e⟩ := nextMove_state s
  rw [e, State.setOrder_status]

@[simp] theorem nextMove_fetch (s : State) : (nextMove s).2.fetch = s.fetch := by
  obtain ⟨_, _, e⟩ := nextMove_state s
  rw [e, State.setOrder_fetch]

/-- Settles O6: the CPU's move of a running core is a fetch, and the fetched word decodes. -/
theorem stepRunsTheDecodedInstruction : Obligations.StepRunsTheDecodedInstruction := by
  intro s i hs hp hd
  have runs : (nextMove s).1 = .cpu → step s = exec i (nextMove s).2 := by
    intro hm
    rw [step, hm, perform, cycle_run ((nextMove_status s).trans hs)]
    exact cycleRun_decoded (by rwa [nextMove_pc]) (by rwa [nextMove_fetch])
  refine ⟨runs, fun rest hr => ?_, nextMove_pc s, nextMove_frame s rfl⟩
  have hn := nextMove_cons s .cpu rest hr
  rw [runs (by rw [hn]), hn]

/-- Settles O8: the halt check comes before the fetch. -/
theorem fetchBeyondMemoryHalts : Obligations.FetchBeyondMemoryHalts := by
  intro s hs hp
  refine ⟨s.setStatus .halted, ?_, rfl, rfl, rfl, rfl, rfl, (Frame.refl _ s).setStatus _ rfl⟩
  rw [cycle_run hs, cycleRun, if_pos (s.runsOffEnd_iff.mpr hp)]

/-- Settles O10: none of the three is RUN. -/
theorem stoppedCoreIgnoresCycles : Obligations.StoppedCoreIgnoresCycles := by
  intro s hs
  refine cycle_stopped fun hr => ?_
  rcases hs with h | h | h <;> cases h.symm.trans hr

/-! HALTED, FAULT and WAIT_KEY -/

/-- Only FX0A may change Status. -/
theorem mayChange_status {s : State} {i : Instr} (h : (mayChange s i).status = true) : ∃ x, i = .ldVxK x := by
  cases i
  case ldVxK x => exact ⟨x, rfl⟩
  all_goals cases h

/-- An instruction that retires keeps Status, or is FX0A. -/
theorem retired_status (s : State) (i : Instr) : (retired s i).status = s.status ∨ ∃ x, i = .ldVxK x := by
  cases h : (mayChange s i).status with
  | false => exact .inl ((retired_frame s i).status h)
  | true => exact .inr (mayChange_status h)

/-- No instruction halts a running core (R237). -/
theorem exec_not_halted {i : Instr} {s t : State} (hs : s.status = .run) (h : exec i s = .next t) : t.status ≠ .halted := by
  rcases exec_cases h with ⟨c, -, rfl⟩ | ⟨-, rfl⟩
  · exact nofun
  · rcases retired_status s i with hr | ⟨x, rfl⟩
    · rw [hr, hs]
      exact nofun
    · exact nofun

/-- A CPU step of a running core halts exactly when it runs off the end (R42, R237). -/
theorem cycleRun_halts_iff {s t : State} (hs : s.status = .run) (h : cycleRun s = .next t) :
    t.status = .halted ↔ 0xFFF ≤ s.pc.toNat := by
  rcases cycleRun_cases h with ⟨hp, rfl⟩ | ⟨hp, i, -, hx⟩ | ⟨hp, e, -, rfl⟩
  · exact iff_of_true rfl hp
  · exact iff_of_false (exec_not_halted hs hx) (by omega)
  · exact iff_of_false nofun (by omega)

/-- A press never halts a core. -/
theorem keyEvent_not_halted {s : State} (k : Nibble) (hs : s.status ≠ .halted) : (s.keyEvent k).status ≠ .halted := by
  rcases s.keyEvent_cases k with ⟨-, e⟩ | ⟨-, e⟩ <;> rw [e]
  · exact nofun
  · exact hs

/-- Settles O9: of the moves, only the CPU's halts, and of its steps only the one that runs off the end. -/
theorem onlyRunOffEndHalts : Obligations.OnlyRunOffEndHalts := by
  intro s t hs h
  have hs' : (nextMove s).2.status ≠ .halted := by rwa [nextMove_status]
  rcases step_cases h with ⟨hm, hc⟩ | ⟨hm, rfl⟩ | ⟨hm, rfl⟩ | ⟨k, hm, rfl⟩
  case inl =>
    rcases cycle_cases hc with ⟨hr, hc⟩ | ⟨hr, rfl⟩
    · rw [cycleRun_halts_iff hr hc, nextMove_pc]
      rw [nextMove_status] at hr
      exact ⟨fun hp => ⟨hr, hp, hm⟩, fun ⟨_, hp, _⟩ => hp⟩
    · rw [nextMove_status] at hr
      exact iff_of_false hs' fun ⟨hrun, _, _⟩ => hr hrun
  all_goals refine iff_of_false ?_ fun ⟨_, _, hcpu⟩ => by cases hm.symm.trans hcpu
  · exact hs'
  · exact hs'
  · exact keyEvent_not_halted k hs'

/-- A step of a core that does not run is the press that ends its wait, or changes DT, ST and the order of moves only (R38, R241,
R253). -/
theorem step_stopped {s t : State} (hs : s.status ≠ .run) (h : step s = .next t) :
    (s.status = .waitKey ∧ t.status = .run ∧ ∃ k, (nextMove s).1 = .press k) ∨
    (t.pc = s.pc ∧ Frame { dt := true, st := true, order := true } s t) := by
  have taken : Frame { dt := true, st := true, order := true } s (nextMove s).2 := nextMove_frame s rfl
  rcases step_cases h with ⟨-, hc⟩ | ⟨-, rfl⟩ | ⟨-, rfl⟩ | ⟨k, hm, rfl⟩
  · have e := (cycle_stopped ((nextMove_status s).trans_ne hs)).symm.trans hc
    rw [← Host.Outcome.next.inj e]
    exact .inr ⟨nextMove_pc s, taken⟩
  · exact .inr ⟨nextMove_pc s, taken.setDt _ rfl⟩
  · exact .inr ⟨nextMove_pc s, taken.setSt _ rfl⟩
  · rcases (nextMove s).2.keyEvent_cases k with ⟨hw, e⟩ | ⟨-, e⟩ <;> rw [e]
    · rw [nextMove_status] at hw
      exact .inl ⟨hw, rfl, k, hm⟩
    · exact .inr ⟨nextMove_pc s, taken⟩

/-- Settles O11: a stopped core is changed by ticks alone, for the press that resumes one finds it in WAIT_KEY. -/
theorem terminalStatesAreNeverLeft : Obligations.TerminalStatesAreNeverLeft := by
  intro s t hs h
  have stopped : s.status ≠ .run := by rcases hs with e | e <;> rw [e] <;> exact nofun
  rcases step_stopped stopped h with ⟨hw, -, -⟩ | kept
  · rcases hs with e | e <;> cases e.symm.trans hw
  · exact kept

/-- Settles O40: a stopped core is resumed by a press or changed by ticks alone. -/
theorem onlyAPressEndsTheWait : Obligations.OnlyAPressEndsTheWait := by
  intro s t hs h
  have stopped : s.status ≠ .run := by rw [hs]; exact nofun
  exact (step_stopped stopped h).imp_left And.right

/-! The key wait -/

/-- The word of FX0A decodes to it (R95). -/
theorem decode_ldVxK (x : Reg) : decode (0xF#4 ++ regNibble x ++ 0x0A#8) = .ok (.ldVxK x) := by
  have misc : dispatch (formatXNN 0xF#4 x 0x0A#8) = dispatchMisc (formatXNN 0xF#4 x 0x0A#8) := rfl
  rw [decode_patternXNN, misc, dispatchMisc, formatXNN_nn]
  rfl

/-- A step that delivers a press. -/
theorem step_press {s : State} {k : Nibble} (h : (nextMove s).1 = .press k) :
    step s = .next ((nextMove s).2.keyEvent k) := by
  rw [step, h, perform]

/-- Settles O39: FX0A is the suspension itself, and a press is delivered in WAIT_KEY alone. -/
theorem keyWaitSuspendsAndAPressResumes : Obligations.KeyWaitSuspendsAndAPressResumes := by
  refine ⟨fun x s => ?_, fun s k hs hm => ?_, fun s k hs hm => ?_⟩
  · exact ⟨decode_ldVxK x, s.suspend x, rfl, rfl, rfl, rfl, (Frame.refl _ s).suspend x rfl rfl⟩
  · obtain ⟨ms, r, e⟩ := nextMove_state s
    have delivered : (s.setOrder ms r).keyEvent k =
        (((s.setOrder ms r).setV s.waitReg (k.setWidth 8)).advance).setStatus .run := by
      simp only [State.keyEvent, State.setOrder_status, hs, State.setOrder_waitReg]
    refine ⟨_, step_press hm, ?_⟩
    rw [e, delivered]
    refine ⟨?_, rfl, rfl, ?_⟩
    · rw [State.setStatus_getV, State.advance_getV, State.getV_setV_same, BitVec.toNat_setWidth]
      have := k.isLt
      omega
    · exact ((((Frame.refl _ s).setOrder ms r rfl).setV _ (decide_eq_true rfl)).setPc _).setStatus _ rfl
  · have ignored : (nextMove s).2.keyEvent k = (nextMove s).2 := by
      rcases (nextMove s).2.keyEvent_cases k with ⟨hw, -⟩ | ⟨-, e⟩
      · exact absurd ((nextMove_status s).symm.trans hw) hs
      · exact e
    refine ⟨_, step_press hm, ?_⟩
    rw [ignored]
    exact ⟨nextMove_pc s, nextMove_frame s rfl⟩

/-! Memory's canonical form -/

/-- A listed byte stands in the list. -/
theorem Memory.mem_of_lookup {m : Memory} {a : Nat} {b : Byte} (h : m.lookup a = some b) : (a, b) ∈ m := by
  induction m with
  | nil => cases h
  | cons c m ih =>
    rw [Memory.lookup] at h
    split at h
    · subst a
      cases h
      exact List.mem_cons_self
    · exact List.mem_cons_of_mem _ (ih h)

/-- In a list with rising addresses every cell is the one listed for its address. -/
theorem Memory.lookup_of_mem {m : Memory} {c : Host.Cell} (rising : m.Pairwise fun c d => c.1 < d.1) (h : c ∈ m) :
    m.lookup c.1 = some c.2 := by
  induction m with
  | nil => cases h
  | cons d m ih =>
    rw [List.pairwise_cons] at rising
    rw [Memory.lookup]
    rcases List.mem_cons.mp h with rfl | h
    · exact if_pos rfl
    · rw [if_neg (rising.1 c h).ne, ih rising.2 h]

/-- The cells of a canonical memory are its bytes that differ from what an unlisted address reads as (log 4). -/
theorem Memory.mem_iff_read {m : Memory} (hm : m.wf) (c : Host.Cell) :
    c ∈ m ↔ m.read c.1 = c.2 ∧ c.2 ≠ Memory.unlisted c.1 := by
  constructor
  · intro h
    rw [Memory.read, Memory.lookup_of_mem hm.1 h]
    exact ⟨rfl, (hm.2 c h).2⟩
  · rintro ⟨hread, hne⟩
    rw [Memory.read] at hread
    cases hl : m.lookup c.1 with
    | none =>
      rw [hl] at hread
      exact absurd hread.symm hne
    | some b =>
      rw [hl] at hread
      cases hread
      exact Memory.mem_of_lookup hl

/-- Settles O33: the cells of a canonical memory follow from its bytes, and a list with rising addresses from its cells. -/
theorem equalMemoriesAreEqualLists : Obligations.EqualMemoriesAreEqualLists := by
  intro m n hm hn hread
  have cells : ∀ c, c ∈ m ↔ c ∈ n := fun c => by rw [Memory.mem_iff_read hm, Memory.mem_iff_read hn, hread]
  have : Std.Irrefl fun c d : Host.Cell => c.1 < d.1 := ⟨fun c => lt_irrefl c.1⟩
  have : Std.Antisymm fun c d : Host.Cell => c.1 < d.1 := ⟨fun _ _ h k => absurd h k.asymm⟩
  exact hm.1.eq_of_mem_iff hn.1 cells

end Sys2Proof.Machine
end

section
/-! PROOFS. The invariant of R45 (10_state.md): it holds at reset and every move of every agent keeps it. -/

namespace Sys2Proof.Machine

/-- Settles O50: reset memory is canonical, and the other clauses are about the listed reset values. -/
theorem resetSatisfiesTheInvariant : Obligations.ResetSatisfiesTheInvariant :=
  ⟨Memory.wf_reset, by decide, by decide, by decide, by decide, by decide, by decide⟩

/-! Where PC goes -/

/-- An address of NNN is below 0x1000 (R93). -/
theorem addr_of_fitsAddr {addr : Word} (h : Word.fitsAddr addr = true) : addr.toNat < 4096 := of_decide_eq_true h

/-- The top of the stack is one of its slots. -/
theorem topOfStack_slot (s : State) : ∃ k : Fin 16, topOfStack s = s.stack[k] := by
  have hk : s.sp.val - 1 < 16 := by
    have := s.sp.isLt
    omega
  refine ⟨⟨s.sp.val - 1, hk⟩, ?_⟩
  simp only [topOfStack, Fin.getElem_fin]
  exact List.getD_eq_getElem _ _ _

/-- An address a fetch can use, moved on by at most 4, stays in the range of PC. -/
theorem advanced_le {w d : Word} (hw : w.toNat ≤ 0xFFE) (hd : d.toNat ≤ 4) : (w + d).toNat ≤ 0x10FE := by
  rw [BitVec.toNat_add]
  omega

/-- BNNN reaches at most 0x0FFF + 0xFF (R122). -/
theorem offset_le {addr : Word} (ha : addr.toNat < 4096) (b : Byte) : (addr + b.setWidth 16).toNat ≤ 0x10FE := by
  have := b.isLt
  rw [BitVec.toNat_add, BitVec.toNat_setWidth]
  omega

/-- PC stays in the range of R45: the largest target is BNNN's. -/
theorem nextPc_le {s : State} {i : Instr} (hi : i.wellFormed = true) (hp : s.pc.toNat ≤ 0xFFE)
    (hslots : ∀ k : Fin 16, s.stack[k].toNat ≤ 0xFFE) : (nextPc s i).toNat ≤ 0x10FE := by
  have next : (s.pc + 2).toNat ≤ 0x10FE := advanced_le hp (by decide)
  have skip : (s.pc + 4).toNat ≤ 0x10FE := advanced_le hp (by decide)
  cases i
  case jp addr | call addr =>
    have : addr.toNat < 4096 := addr_of_fitsAddr hi
    show addr.toNat ≤ 0x10FE
    omega
  case jpV0 addr => exact offset_le (addr_of_fitsAddr hi) _
  case ret =>
    obtain ⟨k, hk⟩ := topOfStack_slot s
    rw [nextPc, hk]
    exact advanced_le (hslots k) (by decide)
  case seByte | sneByte | seReg | sneReg | skp | sknp =>
    rw [nextPc]
    split <;> assumption
  case ldVxK => exact hp.trans (by decide)
  all_goals exact next

/-! What a retiring instruction leaves behind -/

/-- A stack slot keeps its value or holds the PC of the call that was pushed (R123, R124). -/
theorem retired_slot (s : State) (i : Instr) (k : Fin 16) :
    (retired s i).stack[k] = s.stack[k] ∨ (retired s i).stack[k] = s.pc := by
  cases hk : (mayChange s i).slots k with
  | false => exact .inl ((retired_frame s i).slots k hk)
  | true =>
    cases i
    case call addr =>
      have top : k.val = s.sp.val := of_decide_eq_true hk
      have free : s.sp.val < 16 := top ▸ k.isLt
      right
      rw [retired_call, State.push?_some s s.pc free]
      simp [top]
    all_goals cases hk

/-- Memory stays canonical (log 4). -/
theorem retired_wf {s : State} (i : Instr) (h : s.mem.wf) : (retired s i).mem.wf := by
  cases i
  case ldBVx x => exact s.storeDigits_wf x h
  case storeRegs x => exact s.storeLow_wf quirks x h
  case call addr =>
    rw [retired_call]
    cases hp : s.push? s.pc with
    | none => exact h
    | some t =>
      obtain ⟨-, rfl⟩ := State.push?_cases hp
      exact h
  case ret =>
    rw [retired_ret]
    cases hp : s.pop? with
    | none => exact h
    | some p =>
      obtain ⟨_, _, e⟩ := State.pop?_cases hp
      rw [Option.map_some, Option.getD_some, e]
      exact h
  all_goals exact h

/-- The record of faults is in the frame of every instruction that retires (R34). -/
theorem retired_faultCause (s : State) (i : Instr) : (retired s i).faultCause = s.faultCause := by
  refine (retired_frame s i).faultCause ?_
  cases i <;> rfl

/-- The fault of an instruction has a cause (R231). -/
theorem faultOf_ne_none (s : State) (i : Instr) : faultOf s i ≠ some .none := by
  cases i <;> simp [faultOf]

/-! What keeps the invariant -/

namespace State.Inv
variable {s t : State}

/-- The invariant speaks of memory, PC, the stack, Status, the fault record and WaitReg only. -/
theorem congr (h : s.Inv) (mem : t.mem = s.mem) (pc : t.pc = s.pc) (stack : t.stack = s.stack)
    (status : t.status = s.status) (cause : t.faultCause = s.faultCause) (info : t.faultInfo = s.faultInfo)
    (waitReg : t.waitReg = s.waitReg) : t.Inv := by
  have fetch : t.fetch = s.fetch := by rw [State.fetch, State.fetch, mem, pc]
  constructor
  case memory => rw [mem]; exact h.memory
  case pc => rw [pc]; exact h.pc
  case slots => rw [stack]; exact h.slots
  case cause => rw [cause, status]; exact h.cause
  case waiting => rw [status, pc, fetch, waitReg]; exact h.waiting
  case faulted => rw [status, pc, fetch, info]; exact h.faulted
  case halted => rw [status, pc]; exact h.halted

/-- Running off the end (R42). -/
theorem halt (h : s.Inv) (hs : s.status = .run) (hp : 0xFFF ≤ s.pc.toNat) : (s.setStatus .halted).Inv where
  memory := h.memory
  pc := h.pc
  slots := h.slots
  cause := iff_of_true (h.cause.mpr (by rw [hs]; exact nofun)) nofun
  waiting := nofun
  faulted := nofun
  halted _ := hp

/-- Taking a fault records its cause and the word at PC (R232). -/
theorem raise (h : s.Inv) {c : FaultCause} {w : Word} (hp : s.pc.toNat ≤ 0xFFE) (hc : c ≠ .none) (hw : w = s.fetch) :
    (s.raise c w).Inv where
  memory := h.memory
  pc := h.pc
  slots := h.slots
  cause := iff_of_false hc fun hne => hne rfl
  waiting := nofun
  faulted _ := ⟨hp, hw⟩
  halted := nofun

/-- FX0A suspends the core with its own word at PC (R44). -/
theorem suspend (h : s.Inv) {x : Reg} (hs : s.status = .run) (hp : s.pc.toNat ≤ 0xFFE)
    (hd : decode s.fetch = .ok (.ldVxK x)) : (s.suspend x).Inv where
  memory := h.memory
  pc := h.pc
  slots := h.slots
  cause := iff_of_true (h.cause.mpr (by rw [hs]; exact nofun)) nofun
  waiting _ := ⟨hp, hd⟩
  faulted := nofun
  halted := nofun

/-- A running core's invariant is the one of its memory, PC and stack, with no cause recorded. -/
theorem of_run (hs : t.status = .run) (memory : t.mem.wf) (pc : t.pc.toNat ≤ 0x10FE)
    (slots : ∀ k : Fin 16, t.stack[k].toNat ≤ 0xFFE) (cause : t.faultCause = .none) : t.Inv where
  memory := memory
  pc := pc
  slots := slots
  cause := iff_of_true cause (by rw [hs]; exact nofun)
  waiting hw := by cases hs.symm.trans hw
  faulted hw := by cases hs.symm.trans hw
  halted hw := by cases hs.symm.trans hw

/-- A press that ends a wait moves PC past the FX0A, which is at most 0xFFE (R44, R253). -/
theorem keyEvent (h : s.Inv) (k : Nibble) : (s.keyEvent k).Inv := by
  rcases s.keyEvent_cases k with ⟨hw, e⟩ | ⟨-, e⟩ <;> rw [e]
  · exact of_run rfl h.memory (advanced_le (h.waiting hw).1 (by decide)) h.slots (h.cause.mpr (by rw [hw]; exact nofun))
  · exact h

/-- The decoded instruction of a running core: it faults with the word at PC, suspends as the FX0A at PC, or runs on. -/
theorem exec_next (h : s.Inv) {i : Instr} (hs : s.status = .run) (hp : s.pc.toNat ≤ 0xFFE) (hd : decode s.fetch = .ok i)
    (hx : exec i s = .next t) : t.Inv := by
  rcases exec_cases hx with ⟨c, hf, rfl⟩ | ⟨-, rfl⟩
  · exact h.raise hp (fun e => faultOf_ne_none s i (e ▸ hf)) (encode_of_decode hd)
  · rcases retired_status s i with hr | ⟨x, rfl⟩
    · refine of_run (hr.trans hs) (retired_wf i h.memory) ?_ (fun k => ?_) ?_
      · rw [retired_pc]
        exact nextPc_le (wellFormed_of_decode hd) hp h.slots
      · rcases retired_slot s i k with e | e <;> rw [e]
        · exact h.slots k
        · exact hp
      · rw [retired_faultCause]
        exact h.cause.mpr (by rw [hs]; exact nofun)
    · exact h.suspend hs hp hd

/-- A CPU step. -/
theorem cycle_next (h : s.Inv) (hc : cycle s = .next t) : t.Inv := by
  rcases cycle_cases hc with ⟨hs, hr⟩ | ⟨-, rfl⟩
  · rcases cycleRun_cases hr with ⟨hp, rfl⟩ | ⟨hp, i, hd, hx⟩ | ⟨hp, e, -, rfl⟩
    · exact h.halt hs hp
    · exact h.exec_next hs hp hd hx
    · exact h.raise hp nofun rfl
  · exact h

end State.Inv

/-- Settles O51: taking a move off keeps the invariant, and so does each agent's move. -/
theorem everyStepKeepsTheInvariant : Obligations.EveryStepKeepsTheInvariant := by
  intro s t h hstep
  have taken : (nextMove s).2.Inv := by
    obtain ⟨ms, r, e⟩ := nextMove_state s
    rw [e]
    exact h.congr rfl rfl rfl rfl rfl rfl rfl
  rcases step_cases hstep with ⟨-, hc⟩ | ⟨-, rfl⟩ | ⟨-, rfl⟩ | ⟨k, -, rfl⟩
  · exact taken.cycle_next hc
  · exact taken.congr rfl rfl rfl rfl rfl rfl rfl
  · exact taken.congr rfl rfl rfl rfl rfl rfl rfl
  · exact taken.keyEvent k

end Sys2Proof.Machine
end

section
/-! PROOFS. 20_memory.md: the fetched word, what the word after an FX55 is, and what a load copies. -/

namespace Sys2Proof

/-- Two bytes in a word split into their halves, the high byte's first (R64, R91). -/
theorem splitWord_append (hi lo : Byte) :
    splitWord (hi ++ lo) = ⟨hi.extractLsb' 4 4, hi.extractLsb' 0 4, lo.extractLsb' 4 4, lo.extractLsb' 0 4⟩ := by
  have := hi.isLt; have := lo.isLt
  simp only [splitWord, Nibbles.mk.injEq]
  refine ⟨?_, ?_, ?_, ?_⟩ <;>
  · apply BitVec.eq_of_toNat_eq
    simp only [toNat_field, toNat_append]
    omega

end Sys2Proof

namespace Sys2Proof.Machine

/-! The fetch -/

/-- The fetched word as a number: the byte at the lower address is the high byte (R64, D1). -/
theorem State.fetch_toNat (s : State) :
    s.fetch.toNat = (s.mem.read s.pc.toNat).toNat * 256 + (s.mem.read (s.pc.toNat + 1)).toNat :=
  toNat_append _ _

/-- A CPU step of a running core at the end of memory halts it, with no fetch (R42, R64). -/
theorem cycle_runsOffEnd {s : State} (hs : s.status = .run) (hp : s.runsOffEnd = true) :
    cycle s = .next (s.setStatus .halted) := by
  rw [cycle_run hs, cycleRun, if_pos hp]

/-- Settles O7: the fetched word is the two bytes side by side, and the halt check comes before the fetch. -/
theorem fetchTakesTheLowerAddressAsHighByte : Obligations.FetchTakesTheLowerAddressAsHighByte :=
  fun s => ⟨s.fetch_toNat, splitWord_append _ _, fun hs hp => cycle_runsOffEnd hs (decide_eq_true hp)⟩

/-! Storing over the next instruction -/

/-- FX55 inside memory stores and advances (R174). -/
theorem exec_storeRegs_inside {s : State} {x : Reg} (h : s.i.toNat + x.val ≤ 0xFFF) :
    exec (.storeRegs x) s = .next (s.storeLow quirks x).advance :=
  State.ifInMemory_inside _ _ _ _ (.inr (by omega))

/-- The byte at I + k after FX55's store is V[k]. -/
theorem State.storeLow_read_reg (q : Quirks) {s : State} {x k : Reg} (h : s.i.toNat + x.val ≤ 0xFFF) (hk : k.val ≤ x.val) :
    (s.storeLow q x).mem.read (s.i.toNat + k.val) = s.getV k := by
  rw [State.storeLow_read q s x h, if_pos (by omega), Nat.add_sub_cancel_left, lowRegs_getD s x k hk]

/-- Settles O32: PC after the store is the address of V[k], so the fetch reads V[k] and V[k+1]. -/
theorem storedBytesAreFetchedNext : Obligations.StoredBytesAreFetchedNext := by
  intro x k l s t hin hexec hl hlx hpc
  obtain rfl := Host.Outcome.next.inj ((exec_storeRegs_inside hin).symm.trans hexec)
  have high : (s.storeLow quirks x).mem.read (s.pc + 2).toNat = s.getV k := by
    rw [hpc, State.storeLow_read_reg quirks hin (by omega)]
  have low : (s.storeLow quirks x).mem.read ((s.pc + 2).toNat + 1) = s.getV l := by
    rw [hpc, Nat.add_assoc, ← hl, State.storeLow_read_reg quirks hin hlx]
  calc (s.storeLow quirks x).advance.fetch.toNat
      = ((s.storeLow quirks x).mem.read (s.pc + 2).toNat).toNat * 256 +
          ((s.storeLow quirks x).mem.read ((s.pc + 2).toNat + 1)).toNat := State.fetch_toNat _
    _ = (s.getV k).toNat * 256 + (s.getV l).toNat := by rw [high, low]

/-! The load -/

/-- A load writes as many bytes as it counts (R69). -/
theorem length_take_loadCount (address : Nat) (bytes : List Byte) :
    (bytes.take (loadCount address bytes)).length = loadCount address bytes :=
  List.length_take_of_le (Nat.min_le_left _ _)

/-- A load that copies a byte stays in memory: it counts at most `4096 - address` bytes (R69). -/
theorem add_loadCount_le {address k : Nat} {bytes : List Byte} (hk : k < loadCount address bytes) :
    address + loadCount address bytes ≤ 4096 := by
  have : loadCount address bytes ≤ 4096 - address := Nat.min_le_right _ _
  omega

/-- Each copied byte reads back at its address (R69). -/
theorem State.load_read (s : State) {address k : Nat} {bytes : List Byte} (hk : k < loadCount address bytes) :
    (s.load address bytes).1.mem.read (address + k) = bytes.getD k 0 := by
  have inside : address + loadCount address bytes ≤ 4096 := add_loadCount_le hk
  rw [State.load, State.setMem_mem, Memory.read_writeBytes _ _ _ _ (by rwa [length_take_loadCount]), length_take_loadCount,
    if_pos (by omega), Nat.add_sub_cancel_left, List.getD_eq_getElem?_getD, List.getElem?_take_of_lt hk,
    ← List.getD_eq_getElem?_getD]

/-- A load changes the bytes it copies to, and nothing else (R69). -/
theorem State.load_frame (s : State) (address : Nat) (bytes : List Byte) :
    Frame { memory := span address (loadCount address bytes) } s (s.load address bytes).1 :=
  (Frame.refl _ s).writeBytes fun c hc => by rwa [length_take_loadCount]

/-- Settles O48: the bytes copied are those of the count, and only they are written. -/
theorem loadCopiesWhatFits : Obligations.LoadCopiesWhatFits :=
  fun s address bytes => ⟨rfl, fun _ hk => s.load_read hk, rfl, s.load_frame address bytes⟩

end Sys2Proof.Machine
end

section
/-! PROOFS. 30_encoding.md: a word and its nibbles, the round trip between words and instructions, and the words that have
no instruction. -/

namespace Sys2Proof

/-! A word and its digits -/

/-- NN of a word is its low byte (R91). -/
theorem splitWord_nn_toNat (w : Word) : (splitWord w).nn.toNat = w.toNat % 256 := by
  simp only [splitWord, Nibbles.nn, toNat_append, toNat_field]
  omega

/-- The most significant digit (R91). -/
theorem splitWord_n0_toNat (w : Word) : (splitWord w).n0.toNat = w.toNat / 4096 := by
  have := w.isLt
  simp only [splitWord, toNat_field]
  omega

/-- The least significant digit (R91). -/
theorem splitWord_n3_toNat (w : Word) : (splitWord w).n3.toNat = w.toNat % 16 := by
  simp only [splitWord, toNat_field]
  omega

/-- A concatenation, extended, is its upper part shifted past the lower. -/
theorem setWidth_append_eq_or {m n : Nat} (k : Nat) (a : BitVec m) (b : BitVec n) :
    (a ++ b).setWidth k = a.setWidth k <<< n ||| b.setWidth k := by
  ext j hj
  simp only [BitVec.getElem_setWidth, BitVec.getLsbD_append, BitVec.getElem_or, BitVec.getElem_shiftLeft]
  by_cases hn : j < n
  · simp [hn]
  · simp [hn, BitVec.getLsbD_of_ge b j (by omega)]

/-- The nibbles, each shifted to its place, recompose the word (R103). -/
theorem joinNibbles_eq_or (f : Nibbles) :
    joinNibbles f =
      f.n0.setWidth 16 <<< 12 ||| f.n1.setWidth 16 <<< 8 ||| f.n2.setWidth 16 <<< 4 ||| f.n3.setWidth 16 := by
  calc joinNibbles f
      = (f.n0 ++ f.n1 ++ f.n2 ++ f.n3).setWidth 16 := (BitVec.setWidth_eq _).symm
    _ = _ := by
      rw [setWidth_append_eq_or, setWidth_append_eq_or, setWidth_append_eq_or]
      simp only [BitVec.shiftLeft_or_distrib, ← BitVec.shiftLeft_add, Nat.reduceAdd]

/-- Settles O1: each nibble is a digit, and the shifted nibbles are the word's own concatenation. -/
theorem nibblesRecomposeToTheWord : Obligations.NibblesRecomposeToTheWord := fun w =>
  ⟨splitWord_n0_toNat w, toNat_field w 8 4, toNat_field w 4 4, splitWord_n3_toNat w,
    (joinNibbles_eq_or _).symm.trans (joinNibbles_splitWord w)⟩

/-! The round trip -/

@[simp] theorem formatA_n0 (op : Nibble) (addr : Word) : (formatA op addr).n0 = op := rfl

@[simp] theorem formatXNN_n0 (op : Nibble) (x : Reg) (nn : Byte) : (formatXNN op x nn).n0 = op := rfl

@[simp] theorem formatXY_n0 (op : Nibble) (x y : Reg) (s : Nibble) : (formatXY op x y s).n0 = op := rfl

@[simp] theorem formatXY_n3 (op : Nibble) (x y : Reg) (s : Nibble) : (formatXY op x y s).n3 = s := rfl

/-- The nibbles of a well-formed instruction dispatch to it, for each format of R92. -/
theorem dispatch_nibbles {i : Instr} (h : i.wellFormed = true) : dispatch i.nibbles = .ok i := by
  cases i
  case cls | ret => rfl
  case jp addr | call addr | ldI addr | jpV0 addr => -- A
    have fits : addr.toNat < 4096 := Machine.addr_of_fitsAddr h
    simp [Instr.nibbles, dispatch, formatA_addr _ _ fits]
  case drw x y n => -- XYN
    have fits : n < 16 := of_decide_eq_true h
    simp [Instr.nibbles, dispatch, Nat.mod_eq_of_lt fits]
  case ldReg | orReg | andReg | xorReg | addReg | subReg | shr | subnReg | shl => -- 8XYs
    simp [Instr.nibbles, dispatch, dispatchAlu]
  case seReg | sneReg | seByte | sneByte | ldByte | addByte | rnd | skp | sknp => -- XY0, XNN, EXss
    simp [Instr.nibbles, dispatch]
  all_goals simp [Instr.nibbles, dispatch, dispatchMisc] -- FXss

/-- Settles O2: decoding the word dispatches the instruction's own nibbles, and they lead back to it. -/
theorem decodeOfEncodeIsTheInstruction : Obligations.DecodeOfEncodeIsTheInstruction :=
  fun i h => (decode_encode i).trans (dispatch_nibbles h)

/-- Settles O3: a decoded instruction has the nibbles dispatched. -/
theorem encodeOfDecodeIsTheWord : Obligations.EncodeOfDecodeIsTheWord :=
  fun _ _ h => ⟨encode_of_decode h, wellFormed_of_decode h⟩

/-! The words without an instruction -/

/-- A row that checks its secondary discriminant rejects where the check and what follows it reject. -/
theorem ite_error_iff {c : Prop} [Decidable c] (i : Instr) (r : Except DecodeError Instr) :
    (∃ e, (if c then .ok i else r) = .error e) ↔ ¬c ∧ ∃ e, r = .error e := by
  split <;> simp [*]

/-- 8XYs is rejected for s in 8 to D and for F (R97). -/
theorem dispatchAlu_error_iff (f : Nibbles) :
    (∃ e, dispatchAlu f = .error e) ↔ f.n3.toNat ∈ [0x8, 0x9, 0xA, 0xB, 0xC, 0xD, 0xF] := by
  have hlt : f.n3.toNat < 16 := f.n3.isLt
  unfold dispatchAlu
  split
  case h_10 =>
    simp only [Except.error.injEq, exists_eq', true_iff]
    interval_cases f.n3.toNat <;> trivial
  all_goals simp [*]

/-- FXss is rejected outside the nine sub-opcodes (R97). -/
theorem dispatchMisc_error_iff (f : Nibbles) :
    (∃ e, dispatchMisc f = .error e) ↔ f.nn.toNat ∉ [0x07, 0x0A, 0x15, 0x18, 0x1E, 0x29, 0x33, 0x55, 0x65] := by
  unfold dispatchMisc
  split
  all_goals simp_all

/-- The nibbles with no instruction, row by row of R97. -/
theorem dispatch_error_iff (f : Nibbles) :
    (∃ e, dispatch f = .error e) ↔
      (f.n0.toNat = 0x0 ∧ f ≠ ⟨0x0, 0x0, 0xE, 0x0⟩ ∧ f ≠ ⟨0x0, 0x0, 0xE, 0xE⟩) ∨
      (f.n0.toNat = 0x5 ∧ f.n3.toNat ≠ 0) ∨
      (f.n0.toNat = 0x8 ∧ f.n3.toNat ∈ [0x8, 0x9, 0xA, 0xB, 0xC, 0xD, 0xF]) ∨
      (f.n0.toNat = 0x9 ∧ f.n3.toNat ≠ 0) ∨
      (f.n0.toNat = 0xE ∧ f.nn.toNat ∉ [0x9E, 0xA1]) ∨
      (f.n0.toNat = 0xF ∧ f.nn.toNat ∉ [0x07, 0x0A, 0x15, 0x18, 0x1E, 0x29, 0x33, 0x55, 0x65]) := by
  have hlt : f.n0.toNat < 16 := f.n0.isLt
  unfold dispatch
  split
  case h_1 h0 => simp [ite_error_iff, h0] -- 0NNN
  case h_6 h0 | h_10 h0 | h_15 h0 => simp [ite_error_iff, h0, ← BitVec.toNat_inj] -- 5XYN, 9XYN, EXNN
  case h_9 h0 => simp [dispatchAlu_error_iff, h0] -- 8XYN
  case h_16 => -- FXNN
    have h0 : f.n0.toNat = 0xF := by interval_cases f.n0.toNat <;> trivial
    simp [dispatchMisc_error_iff, h0]
  all_goals simp [*] -- the rows that accept every operand

/-- A word has given nibbles when its number is that of their word. -/
theorem splitWord_eq_iff {w : Word} {f : Nibbles} : splitWord w = f ↔ w.toNat = (joinNibbles f).toNat := by
  rw [BitVec.toNat_inj]
  constructor
  · rintro rfl
    exact (joinNibbles_splitWord w).symm
  · rintro rfl
    exact splitWord_joinNibbles f

/-- Settles O4: the rejected nibbles, row by row, are those of the words listed. -/
theorem illegalWordsAreExactlyTheListed : Obligations.IllegalWordsAreExactlyTheListed := by
  intro w
  have rows := dispatch_error_iff (splitWord w)
  simp only [splitWord_n0_toNat, splitWord_n3_toNat, splitWord_nn_toNat, ne_eq, splitWord_eq_iff] at rows
  exact rows

end Sys2Proof
end

section
/-! PROOFS. 41_control_flow.md: the jumps, call and return, and the register skips. -/

namespace Sys2Proof

/-- A zero-extended NNN is a value of NNN (R93). -/
theorem fitsAddr_zext (nnn : BitVec 12) : Word.fitsAddr (nnn.setWidth 16) = true :=
  decide_eq_true ((toNat_zext_addr nnn).trans_lt nnn.isLt)

/-- The X nibble of a zero-extended NNN (R91). -/
theorem regOf_zext_addr {nnn : BitVec 12} {x : Reg} (hx : x.val = nnn.toNat / 256) :
    regOf ((nnn.setWidth 16 : Word).extractLsb' 8 4) = x := by
  apply Fin.ext
  have hlt : nnn.toNat < 4096 := nnn.isLt
  have field : (regOf ((nnn.setWidth 16 : Word).extractLsb' 8 4)).val = nnn.toNat / 256 % 16 := by
    rw [← toNat_zext_addr nnn]
    exact toNat_field _ 8 4
  omega

/-- NNN plus a byte fits 16 bits, so their sum is never reduced (R122). -/
theorem toNat_zext_addr_add_byte (nnn : BitVec 12) (b : Byte) :
    (nnn.setWidth 16 + b.setWidth 16 : Word).toNat = nnn.toNat + b.toNat := by
  have := nnn.isLt
  have := b.isLt
  rw [BitVec.toNat_add, toNat_zext_addr, BitVec.toNat_setWidth]
  omega

/-! Decoding -/

/-- A word of format A decodes to the well-formed instruction of its nibbles. -/
theorem decode_wordA {i : Instr} {op : Nibble} {nnn : BitVec 12} (hi : i.nibbles = formatA op (nnn.setWidth 16))
    (hw : i.wellFormed = true) : decode (op ++ nnn) = .ok i := by
  rw [decode_patternA, ← hi, dispatch_nibbles hw]

/-- A word of format XNN decodes to the well-formed instruction of its nibbles. -/
theorem decode_wordXNN {i : Instr} {op : Nibble} {x : Reg} {nn : Byte} (hi : i.nibbles = formatXNN op x nn)
    (hw : i.wellFormed = true) : decode (op ++ regNibble x ++ nn) = .ok i := by
  rw [decode_patternXNN, ← hi, dispatch_nibbles hw]

/-- A word of format XYs decodes to the well-formed instruction of its nibbles. -/
theorem decode_wordXY {i : Instr} {op s : Nibble} {x y : Reg} (hi : i.nibbles = formatXY op x y s)
    (hw : i.wellFormed = true) : decode (op ++ regNibble x ++ regNibble y ++ s) = .ok i := by
  rw [decode_patternXY, ← hi, dispatch_nibbles hw]

/-- 5XYN with N not 0 is no instruction (R97). -/
theorem decode_seReg_illegal (x y : Reg) {k : Nibble} (hk : k ≠ 0) :
    decode (0x5#4 ++ regNibble x ++ regNibble y ++ k) = .error .seRegLowNibble :=
  (decode_patternXY 0x5 x y k).trans (if_neg hk)

/-- 9XYN with N not 0 is no instruction (R97). -/
theorem decode_sneReg_illegal (x y : Reg) {k : Nibble} (hk : k ≠ 0) :
    decode (0x9#4 ++ regNibble x ++ regNibble y ++ k) = .error .sneRegLowNibble :=
  (decode_patternXY 0x9 x y k).trans (if_neg hk)

end Sys2Proof

namespace Sys2Proof.Machine

/-! How an instruction completes or faults -/

/-- An instruction that does not fault completes, with PC and the frame of its rule (R41). -/
theorem exec_completes {i : Instr} {s : State} (h : faultOf s i = none) :
    ∃ t, exec i s = .next t ∧ t.pc = nextPc s i ∧ Frame (mayChange s i) s t :=
  ⟨_, exec_of_no_fault h, retired_pc s i, retired_frame s i⟩

/-- An instruction on its fault condition takes that fault with its own word (R232). -/
theorem exec_faulted {i : Instr} {s : State} {c : FaultCause} (h : faultOf s i = some c) :
    ∃ t, exec i s = .next t ∧ Faulted c (encode i) s t :=
  ⟨_, exec_of_fault i s c h, s.raise_faulted c (encode i)⟩

/-! Jumps -/

/-- Settles O17: 1NNN never faults, and its target is NNN. -/
theorem jumpSetsPc : Obligations.JumpSetsPc := by
  intro nnn s
  obtain ⟨t, hexec, hpc, hframe⟩ := exec_completes (i := .jp (nnn.setWidth 16)) (s := s) rfl
  exact ⟨decode_wordA rfl (fitsAddr_zext nnn), t, hexec, hpc ▸ toNat_zext_addr nnn, hframe⟩

/-- Under JUMP_OFFSET_REG = VX, BNNN adds the register its X nibble names (R122). -/
theorem jumpOffset_vx {q : Quirks} (hq : q.jumpOffsetReg = .vx) (s : State) (addr : Word) :
    jumpOffset q s addr = s.getV (regOf (addr.extractLsb' 8 4)) := by
  rw [jumpOffset, hq]

/-- Settles O18: under either parameter the target is NNN plus one register, a sum that fits PC. -/
theorem jumpWithOffsetAddsTheRegister : Obligations.JumpWithOffsetAddsTheRegister := by
  intro nnn s
  refine ⟨decode_wordA rfl (fitsAddr_zext nnn), ?_, fun q hq x hx => ?_⟩
  · obtain ⟨t, hexec, hpc, hframe⟩ := exec_completes (i := .jpV0 (nnn.setWidth 16)) (s := s) rfl
    exact ⟨t, hexec, hpc ▸ toNat_zext_addr_add_byte nnn (s.getV 0), hframe⟩
  · rw [jumpTarget, jumpOffset_vx hq, regOf_zext_addr hx]
    exact toNat_zext_addr_add_byte nnn (s.getV x)

/-! Call and return -/

/-- A call with a free slot pushes its own address, jumps, and changes nothing else (R123). -/
theorem exec_call_pushes {s : State} (addr : Word) (free : s.sp.val < 16) :
    ∃ t, exec (.call addr) s = .next t ∧ t.pc = addr ∧ t.sp.val = s.sp.val + 1 ∧
      (∀ k : Fin 16, t.stack[k] = if k.val = s.sp.val then s.pc else s.stack[k]) ∧
      Frame { slots := fun k => k.val = s.sp.val, sp := true } s t := by
  have pushed := State.push?_some s s.pc free
  refine ⟨_, execCall_free addr s free, rfl, rfl, fun k => ?_,
    ((Frame.refl _ s).push pushed rfl fun _ => decide_eq_true).setPc addr⟩
  exact (Vector.getElem_set free k.isLt).trans (if_congr eq_comm rfl rfl)

/-- The top of a stack of `k + 1` frames is slot `k`. -/
theorem topOfStack_eq_slot {s : State} {k : Fin 16} (h : s.sp.val = k.val + 1) : topOfStack s = s.stack[k] := by
  rw [topOfStack, h, Nat.add_sub_cancel]
  exact List.getD_eq_getElem _ _ _

/-- A return with a frame on the stack resumes 2 past the saved address, and changes nothing else but SP (R124). -/
theorem exec_ret_pops {s : State} {k : Fin 16} (h : s.sp.val = k.val + 1) :
    ∃ t, exec .ret s = .next t ∧ t.pc = s.stack[k] + 2 ∧ t.sp.val = k.val ∧ t.stack = s.stack ∧
      Frame { sp := true } s t := by
  have frame : 0 < s.sp.val := by omega
  refine ⟨_, execRet_frame s frame, ?_, ?_, rfl, ((Frame.refl _ s).pop (State.pop?_some s frame) rfl).setPc _⟩
  · rw [State.setPc_pc, topOfStack_eq_slot h]
  · show s.sp.val - 1 = k.val
    omega

/-- Settles O19: a call pushes where a slot is free, and faults at SP = 16. -/
theorem callPushesItsOwnAddress : Obligations.CallPushesItsOwnAddress := by
  intro nnn s
  refine ⟨decode_wordA rfl (fitsAddr_zext nnn), fun free => ?_, fun full => ?_⟩
  · obtain ⟨t, hexec, hpc, rest⟩ := exec_call_pushes (nnn.setWidth 16) free
    exact ⟨t, hexec, hpc ▸ toNat_zext_addr nnn, rest⟩
  · rw [← encode_patternA (i := .call (nnn.setWidth 16)) 0x2#4 nnn rfl]
    exact exec_faulted (if_pos full)

/-- Settles O20: a return pops where a frame is on the stack, and faults at SP = 0. -/
theorem returnResumesPastTheCall : Obligations.ReturnResumesPastTheCall :=
  fun _ => ⟨rfl, fun _ => exec_ret_pops, fun empty => exec_faulted (if_pos empty)⟩

/-- Settles O21: the return pops the slot the call pushed, and leaves the ones below. -/
theorem callThenReturnRestores : Obligations.CallThenReturnRestores := by
  intro addr s t u free hcall hsp hslots
  obtain ⟨t', hcall', -, called, pushed, -⟩ := exec_call_pushes addr free
  obtain rfl := Host.Outcome.next.inj (hcall'.symm.trans hcall)
  obtain ⟨r, hret, hpc, popped, hstack, -⟩ := exec_ret_pops (s := u) (k := ⟨s.sp.val, free⟩) (by rw [hsp, called])
  refine ⟨r, hret, ?_, Fin.ext popped, fun k hk => ?_⟩
  · rw [hpc, hslots _ (by rw [called]; exact Nat.lt_succ_self _), pushed, if_pos rfl]
  · rw [hstack, hslots k (by omega), pushed, if_neg hk.ne]

/-! Skips -/

/-- Settles O22: no register skip faults, and PC is that of the control class the condition picks. -/
theorem registerSkipsAdvanceByFourOrTwo : Obligations.RegisterSkipsAdvanceByFourOrTwo := by
  intro x y nn s
  refine ⟨⟨decode_wordXNN rfl rfl, exec_completes rfl⟩, ⟨decode_wordXNN rfl rfl, ?_⟩,
    ⟨decode_wordXY rfl rfl, exec_completes rfl⟩, ⟨decode_wordXY rfl rfl, ?_⟩,
    fun k hk => ⟨decode_seReg_illegal x y hk, decode_sneReg_illegal x y hk⟩⟩
  · rw [ite_not]
    exact exec_completes (i := .sneByte x nn) rfl
  · rw [ite_not]
    exact exec_completes (i := .sneReg x y) rfl

end Sys2Proof.Machine
end

section
/-! PROOFS. 42_arith_logic.md: loads, adds, subtracts, bitwise operations and shifts. -/

namespace Sys2Proof.Machine

/-! A result and a flag -/

/-- VF holds the flag, whatever the register of the result (R22). -/
@[simp] theorem State.getV_setVFlag_vF (s : State) (x : Reg) (b f : Byte) : (s.setVFlag x b f).getV vF = f :=
  (s.getV_setVFlag x vF b f).trans (if_pos rfl)

/-- The flag leaves a result outside VF alone (R22). -/
theorem State.getV_setVFlag_result (s : State) {x : Reg} (b f : Byte) (hx : x ≠ vF) : (s.setVFlag x b f).getV x = b := by
  rw [State.getV_setVFlag, if_neg hx, if_pos rfl]

/-- A difference is reduced mod 256 (R149, R151). -/
theorem toNat_sub_byte (a b : Byte) : (a - b).toNat = (a.toNat + 256 - b.toNat) % 256 := by
  have := b.isLt
  rw [BitVec.toNat_sub]
  omega

/-- Under LOGIC_VF_RESET a bitwise operation writes 0 to VF after its result (R145 to R147). -/
theorem State.setLogic_reset {q : Quirks} (hq : q.logicVfReset = true) (s : State) (x : Reg) (r : Byte) :
    s.setLogic q x r = s.setVFlag x r 0 := if_pos hq

/-- Under SHIFT_SRC = VY a shift reads V[Y] (R150, R152). -/
theorem shiftSource_vy {q : Quirks} (hq : q.shiftSrc = .vy) (s : State) (x y : Reg) :
    shiftSource q s x y = s.getV y := by
  rw [shiftSource, hq]

/-! How an instruction of one result completes -/

section
variable {i : Instr} {s : State} {x : Reg} {b : Byte}

/-- An instruction that answers V[X] written and PC advanced changes nothing else. -/
theorem exec_sets_register (h : exec i s = .next (s.setV x b).advance) :
    ∃ t, exec i s = .next t ∧ t.getV x = b ∧ t.pc = s.pc + 2 ∧ Frame { regs := fun r => r = x } s t :=
  ⟨_, h, s.getV_setV_same x b, rfl, ((Frame.refl _ s).setV b (decide_eq_true rfl)).setPc _⟩

/-- The same, the result given bit by bit. -/
theorem exec_sets_bits {p : Nat → Bool} (h : exec i s = .next (s.setV x b).advance) (bits : ∀ k, b.getLsbD k = p k) :
    ∃ t, exec i s = .next t ∧ (∀ k, (t.getV x).getLsbD k = p k) ∧ t.pc = s.pc + 2 ∧
      Frame { regs := fun r => r = x } s t := by
  obtain ⟨t, hexec, rfl, rest⟩ := exec_sets_register h
  exact ⟨t, hexec, bits, rest⟩

/-- An instruction that answers a result in V[X], a flag in VF and PC advanced changes nothing else; result and flag are
given as numbers. -/
theorem exec_sets_result_and_flag {f : Byte} {n m : Nat} (h : exec i s = .next (s.setVFlag x b f).advance)
    (result : b.toNat = n) (flag : f.toNat = m) :
    ∃ t, exec i s = .next t ∧ (x ≠ vF → (t.getV x).toNat = n) ∧ (t.getV vF).toNat = m ∧ t.pc = s.pc + 2 ∧
      Frame { regs := fun r => r = x || r = vF } s t := by
  refine ⟨_, h, fun hx => ?_, ?_, rfl, ((Frame.refl _ s).setVFlag b f (by simp) (by simp)).setPc _⟩
  · exact (congrArg BitVec.toNat (s.getV_setVFlag_result b f hx)).trans result
  · exact (congrArg BitVec.toNat (s.getV_setVFlag_vF x b f)).trans flag

end

/-! Bitwise operations -/

/-- Settles O24: at the default the result alone is written; under LOGIC_VF_RESET it is a result with flag 0. -/
theorem bitwiseOperationsActOnEachBit : Obligations.BitwiseOperationsActOnEachBit := by
  intro x y s
  refine ⟨⟨decode_wordXY rfl rfl, exec_sets_bits rfl fun _ => BitVec.getLsbD_or⟩,
    ⟨decode_wordXY rfl rfl, exec_sets_bits rfl fun _ => BitVec.getLsbD_and⟩,
    ⟨decode_wordXY rfl rfl, exec_sets_bits rfl fun _ => BitVec.getLsbD_xor⟩, fun q r hq => ?_⟩
  rw [State.setLogic_reset hq]
  exact ⟨s.getV_setVFlag_vF x r 0, s.getV_setVFlag_result r 0⟩

/-! Adds and subtracts -/

/-- Settles O25: each writes its result mod 256, then its flag, both of the old operands. -/
theorem addAndSubtractWrapAndSetTheFlag : Obligations.AddAndSubtractWrapAndSetTheFlag := fun _ _ _ =>
  ⟨⟨decode_wordXY rfl rfl, exec_sets_result_and_flag rfl (BitVec.toNat_add ..) (carryFlag_toNat ..)⟩,
    ⟨decode_wordXY rfl rfl, exec_sets_result_and_flag rfl (toNat_sub_byte ..) (noBorrowFlag_toNat ..)⟩,
    ⟨decode_wordXY rfl rfl, exec_sets_result_and_flag rfl (toNat_sub_byte ..) (noBorrowFlag_toNat ..)⟩⟩

/-! Shifts -/

/-- Settles O26: the shifted source and the bit put out, of V[X] at the default and of V[Y] under SHIFT_SRC = VY. -/
theorem shiftsByOneCaptureTheBitPutOut : Obligations.ShiftsByOneCaptureTheBitPutOut := by
  intro x y s
  refine ⟨⟨decode_wordXY rfl rfl, exec_sets_result_and_flag rfl (toNat_shiftRight_one _) (shrFlag_toNat _)⟩,
    ⟨decode_wordXY rfl rfl, exec_sets_result_and_flag rfl (toNat_shiftLeft_one _) (shlFlag_toNat _)⟩, fun q hq => ?_⟩
  simp only [State.shiftRight, State.shiftLeft, shiftSource_vy hq, State.getV_setVFlag_vF]
  refine ⟨fun hx => ?_, shrFlag_toNat _, shlFlag_toNat _⟩
  simp only [State.getV_setVFlag_result _ _ _ hx]
  exact ⟨toNat_shiftRight_one _, toNat_shiftLeft_one _⟩

/-! Loads and the immediate add -/

/-- Settles O23: each writes V[X] alone. -/
theorem loadsAndImmediateAddWriteOnlyX : Obligations.LoadsAndImmediateAddWriteOnlyX := by
  intro x y nn s
  refine ⟨⟨decode_wordXNN rfl rfl, exec_sets_register rfl⟩, ⟨decode_wordXNN rfl rfl, ?_⟩,
    ⟨decode_wordXY rfl rfl, exec_sets_register rfl⟩⟩
  obtain ⟨t, hexec, hx, rest⟩ := exec_sets_register (i := .addByte x nn) (s := s) (b := s.getV x + nn) rfl
  exact ⟨t, hexec, hx ▸ BitVec.toNat_add _ _, rest⟩

end Sys2Proof.Machine
end

section
/-! PROOFS. 43_memory_ops.md: the writers of I, the store and the load of the low registers, and the decimal digits. -/

namespace Sys2Proof.Machine

/-! The writers of I -/

/-- An instruction that answers I written and PC advanced changes nothing else; I is given as a number. -/
theorem exec_sets_index {i : Instr} {s : State} {w : Word} {n : Nat} (h : exec i s = .next (s.setI w).advance)
    (hw : w.toNat = n) :
    ∃ t, exec i s = .next t ∧ t.i.toNat = n ∧ t.pc = s.pc + 2 ∧ Frame { index := true } s t :=
  ⟨_, h, hw, rfl, ((Frame.refl _ s).setI w rfl).setPc _⟩

/-- I plus a byte is reduced mod 2^16 (R172, D13). -/
theorem toNat_add_zext_byte (w : Word) (b : Byte) :
    (w + b.setWidth 16).toNat = (w.toNat + b.toNat) % 65536 := by
  have := b.isLt
  rw [BitVec.toNat_add, BitVec.toNat_setWidth]
  omega

/-- A glyph's address is at most 75, so it is never reduced (R177). -/
theorem glyphAddr_toNat (b : Byte) : (glyphAddr b).toNat = 5 * (b.toNat % 16) := by
  rw [glyphAddr, BitVec.toNat_ofNat]
  omega

/-- Settles O27: each writes I alone. -/
theorem indexWritersSetI : Obligations.IndexWritersSetI := fun nnn x s =>
  ⟨⟨decode_wordA rfl (fitsAddr_zext nnn), exec_sets_index rfl (toNat_zext_addr nnn)⟩,
    ⟨decode_wordXNN rfl rfl, exec_sets_index rfl (toNat_add_zext_byte s.i (s.getV x))⟩,
    ⟨decode_wordXNN rfl rfl, exec_sets_index rfl (glyphAddr_toNat (s.getV x))⟩⟩

/-! Storing and loading the low registers -/

/-- An instruction of format XNN on its fault condition takes that fault with its own word (R232). -/
theorem exec_faulted_wordXNN {i : Instr} {op : Nibble} {x : Reg} {nn : Byte} {s : State} {c : FaultCause}
    (hi : i.nibbles = formatXNN op x nn) (hf : faultOf s i = some c) :
    ∃ t, exec i s = .next t ∧ Faulted c (op ++ regNibble x ++ nn) s t :=
  encode_patternXNN op x nn hi ▸ exec_faulted hf

/-- FX65 inside memory loads and advances (R175). -/
theorem exec_loadRegs_inside {s : State} {x : Reg} (h : s.i.toNat + x.val ≤ 0xFFF) :
    exec (.loadRegs x) s = .next (s.loadLowThenIndex quirks x).advance :=
  State.ifInMemory_inside _ _ _ _ (.inr (by omega))

/-- A register after FX65's load: the byte at I + k for V0..V[X], the old value above. -/
theorem State.loadLowThenIndex_getV (q : Quirks) (s : State) (x k : Reg) :
    (s.loadLowThenIndex q x).getV k = if k.val ≤ x.val then s.mem.read (s.i.toNat + k.val) else s.getV k :=
  s.loadLow_getV x k

/-- Settles O28: inside memory the store completes, beyond it MEM_BOUNDS is taken before any byte is written. -/
theorem storeWritesTheLowRegisters : Obligations.StoreWritesTheLowRegisters := by
  intro x s
  refine ⟨decode_wordXNN rfl rfl, fun inside => ?_, fun beyond => exec_faulted_wordXNN rfl (if_pos beyond),
    fun q => indexAfterLdst_toNat q s.i x⟩
  exact ⟨_, exec_storeRegs_inside inside, fun k hk => State.storeLow_read_reg quirks inside hk, rfl,
    retired_frame s (.storeRegs x)⟩

/-- Settles O29: inside memory the load completes, beyond it MEM_BOUNDS is taken before any register is written. -/
theorem loadReadsTheLowRegisters : Obligations.LoadReadsTheLowRegisters := by
  intro x s
  refine ⟨decode_wordXNN rfl rfl, fun inside => ?_, fun beyond => exec_faulted_wordXNN rfl (if_pos beyond),
    fun q => indexAfterLdst_toNat q s.i x⟩
  exact ⟨_, exec_loadRegs_inside inside, fun k hk => (s.loadLowThenIndex_getV quirks x k).trans (if_pos hk), rfl,
    retired_frame s (.loadRegs x)⟩

/-- Settles O31: the load reads V[k] where the store wrote it, at I + k. -/
theorem loadAfterStoreRestoresTheRegisters : Obligations.LoadAfterStoreRestoresTheRegisters := by
  intro x s t u inside hstore hmem hi
  obtain rfl := Host.Outcome.next.inj ((exec_storeRegs_inside inside).symm.trans hstore)
  refine ⟨_, exec_loadRegs_inside (by rwa [hi]), fun k hk => ?_, fun k hk => ?_⟩
  · calc (u.loadLowThenIndex quirks x).getV k
        = u.mem.read (u.i.toNat + k.val) := (u.loadLowThenIndex_getV quirks x k).trans (if_pos hk)
      _ = (s.storeLow quirks x).mem.read (s.i.toNat + k.val) := by rw [hmem, hi, State.advance_mem]
      _ = s.getV k := State.storeLow_read_reg quirks inside hk
  · exact (u.loadLowThenIndex_getV quirks x k).trans (if_neg hk)

/-! Decimal digits -/

/-- FX33 inside memory stores the digits and advances (R176). -/
theorem exec_ldBVx_inside {s : State} {x : Reg} (h : s.i.toNat + 2 ≤ 0xFFF) :
    exec (.ldBVx x) s = .next (s.storeDigits x).advance :=
  State.ifInMemory_inside _ _ _ _ (.inr (by omega))

/-- The digits of a byte as numbers: hundreds, tens and ones, none of them reduced (R176). -/
theorem decimalDigits_toNat (b : Byte) :
    (decimalDigits b).map BitVec.toNat = [b.toNat / 100, b.toNat / 10 % 10, b.toNat % 10] := by
  have := b.isLt
  simp only [decimalDigits, List.map_cons, List.map_nil, BitVec.toNat_ofNat, List.cons.injEq, and_true]
  omega

/-- The byte at I + k after FX33's store is digit k of V[X] (R176). -/
theorem State.storeDigits_read_digit {s : State} {x : Reg} (h : s.i.toNat + 2 ≤ 0xFFF) {k : Nat} (hk : k < 3) :
    ((s.storeDigits x).mem.read (s.i.toNat + k)).toNat =
      [(s.getV x).toNat / 100, (s.getV x).toNat / 10 % 10, (s.getV x).toNat % 10].getD k 0 := by
  rw [State.storeDigits_read s x h, if_pos (by omega), Nat.add_sub_cancel_left, ← decimalDigits_toNat]
  exact (List.getD_map (f := BitVec.toNat) ..).symm

/-- Settles O30: inside memory each digit is at its address, beyond it MEM_BOUNDS is taken before any byte is written. -/
theorem bcdStoresTheDecimalDigits : Obligations.BcdStoresTheDecimalDigits := by
  intro x s
  refine ⟨decode_wordXNN rfl rfl, fun inside => ?_, fun beyond => exec_faulted_wordXNN rfl (if_pos beyond)⟩
  have digit {k : Nat} (hk : k < 3) := State.storeDigits_read_digit (x := x) inside hk
  exact ⟨_, exec_ldBVx_inside inside, digit (k := 0) (by decide), digit (k := 1) (by decide), digit (k := 2) (by decide),
    rfl, retired_frame s (.ldBVx x)⟩

end Sys2Proof.Machine
end

section
/-! PROOFS. 44_random_display.md: the random byte, the clear, and the draw of a sprite. -/

namespace Sys2Proof

/-- The word of an instruction of format XYs, or XYN. -/
theorem encode_patternXY {i : Instr} {op k : Nibble} {x y : Reg} (h : i.nibbles = formatXY op x y k) :
    encode i = op ++ regNibble x ++ regNibble y ++ k := by
  apply splitWord_injective
  rw [splitWord_encode, splitWord_patternXY, h]

/-- A row count read from a nibble is encoded as that nibble. -/
theorem drw_nibbles (x y : Reg) (n : Nibble) : (Instr.drw x y n.toNat).nibbles = formatXY 0xD x y n := by
  rw [Instr.nibbles, BitVec.ofNat_toNat, BitVec.setWidth_eq]

end Sys2Proof

namespace Sys2Proof.Machine

/-! The random byte -/

/-- CXNN takes one draw, writes it masked, and advances (R191). -/
theorem exec_rnd (x : Reg) (nn : Byte) (s : State) :
    exec (.rnd x nn) s = .next (s.countDraw.setV x (Config.freeRandom s.draws &&& nn)).advance := rfl

/-- Settles O34: CXNN never faults, and V[X] reads back as the masked draw. -/
theorem randomByteIsMasked : Obligations.RandomByteIsMasked := by
  intro x nn s
  have hx : (s.countDraw.setV x (Config.freeRandom s.draws &&& nn)).advance.getV x = Config.freeRandom s.draws &&& nn :=
    State.getV_setV_same ..
  refine ⟨decode_wordXNN rfl rfl, _, exec_rnd x nn s, hx, rfl, rfl, fun k hk => ?_, retired_frame s (.rnd x nn)⟩
  rw [hx, BitVec.getLsbD_and, hk, Bool.and_false]

/-! The clear -/

/-- Settles O35: 00E0 never faults, and it puts the blank framebuffer in place. -/
theorem clearBlanksEveryPixel : Obligations.ClearBlanksEveryPixel := fun s =>
  ⟨rfl, _, rfl, Framebuffer.pixel_blank, rfl, retired_frame s .cls⟩

/-! One draw -/

section
variable {x y : Nat} {rows : List Byte} (f : Framebuffer)

/-- The place at column `c` and row `r` of a sprite is covered exactly when its own bit is set: no two places of a sprite wrap
to one pixel (R193). -/
theorem lit_at (h : rows.length ≤ 32) {c r : Nat} (hc : c < 8) (hr : r < rows.length) :
    lit x y rows (x + c) (y + r) = (rows.getD r 0).getLsbD (7 - c) := by
  rw [Bool.eq_iff_iff, lit_iff]
  constructor
  · rintro ⟨c', r', hc', hr', hbit, hcol, hrow⟩
    obtain rfl : c' = c := by omega
    obtain rfl : r' = r := by omega
    exact hbit
  · exact fun hbit => ⟨c, r, hc, hr, hbit, rfl, rfl⟩

/-- A pixel under a place of the sprite is the old one exclusive-or the bit there (R193). -/
theorem Framebuffer.draw_pixel_at (h : rows.length ≤ 32) {c r : Nat} (hc : c < 8) (hr : r < rows.length) :
    (f.draw x y rows).1.pixel (x + c) (y + r) = (f.pixel (x + c) (y + r) ^^ (rows.getD r 0).getLsbD (7 - c)) := by
  rw [f.draw_pixel x y rows _ _ h, lit_at h hc hr]

/-- A draw changes only pixels under set bits (R195). -/
theorem Framebuffer.lit_of_draw_changes (h : rows.length ≤ 32) {a b : Nat}
    (hne : (f.draw x y rows).1.pixel a b ≠ f.pixel a b) : lit x y rows a b = true := by
  rw [f.draw_pixel x y rows a b h] at hne
  by_contra hlit
  rw [Bool.eq_false_of_not_eq_true hlit, Bool.xor_false] at hne
  exact hne rfl

/-- A pixel under no place of the sprite is kept (R193). -/
theorem Framebuffer.draw_pixel_outside (h : rows.length ≤ 32) {a b : Nat}
    (hout : ∀ c r, c < 8 → r < rows.length → ¬ (a % 64 = (x + c) % 64 ∧ b % 32 = (y + r) % 32)) :
    (f.draw x y rows).1.pixel a b = f.pixel a b := by
  by_contra hne
  obtain ⟨c, r, hc, hr, -, hplace⟩ := (lit_iff x y rows a b).mp (f.lit_of_draw_changes h hne)
  exact hout c r hc hr hplace

/-! Two draws -/

/-- Every pixel is flipped twice or not at all (R195). -/
theorem Framebuffer.draw_draw (h : rows.length ≤ 32) : ((f.draw x y rows).1.draw x y rows).1 = f := by
  apply Framebuffer.ext_pixel
  intro a b
  rw [Framebuffer.draw_pixel _ x y rows a b h, f.draw_pixel x y rows a b h, Bool.xor_assoc, Bool.xor_self, Bool.xor_false]

/-- The second draw collides where the first set a pixel: under a set bit, on a pixel that was clear (R193; log 17). -/
theorem Framebuffer.second_draw_collision (h : rows.length ≤ 32) :
    ((f.draw x y rows).1.draw x y rows).2 = true ↔ ∃ c r, c < 8 ∧ r < rows.length ∧
      (rows.getD r 0).getLsbD (7 - c) = true ∧ f.pixel (x + c) (y + r) = false := by
  rw [Framebuffer.draw_collision _ x y rows h]
  refine exists₂_congr fun c r => and_congr_right fun hc => and_congr_right fun hr => and_congr_right fun hbit => ?_
  rw [f.draw_pixel_at h hc hr, hbit, Bool.xor_true, Bool.not_eq_true']

/-- A byte has a set bit, counted from the left, exactly when it is not 0. -/
theorem exists_sprite_bit_iff (row : Byte) : (∃ c, c < 8 ∧ row.getLsbD (7 - c) = true) ↔ row ≠ 0 := by
  constructor
  · rintro ⟨c, -, hbit⟩ rfl
    exact absurd hbit (by simp)
  · contrapose!
    intro hclear
    refine BitVec.eq_of_getLsbD_eq fun k hk => ?_
    have hbit := hclear (7 - k) (by omega)
    rw [show 7 - (7 - k) = k by omega] at hbit
    simpa using hbit

/-- A sprite has a set bit exactly when some row is not 0. -/
theorem exists_set_bit_iff (rows : List Byte) :
    (∃ c r, c < 8 ∧ r < rows.length ∧ (rows.getD r 0).getLsbD (7 - c) = true) ↔ ∃ row ∈ rows, row ≠ 0 := by
  simp only [← exists_sprite_bit_iff]
  constructor
  · rintro ⟨c, r, hc, hr, hbit⟩
    rw [List.getD_eq_getElem _ _ hr] at hbit
    exact ⟨rows[r], List.getElem_mem hr, c, hc, hbit⟩
  · rintro ⟨row, hrow, c, hc, hbit⟩
    obtain ⟨r, hr, rfl⟩ := List.getElem_of_mem hrow
    exact ⟨c, r, hc, hr, by rwa [List.getD_eq_getElem _ _ hr]⟩

/-- After a first draw without a collision every pixel under a set bit was clear, so the second collides exactly when the
sprite has a set bit (R195; log 17). -/
theorem Framebuffer.second_draw_collision_of_clear (h : rows.length ≤ 32) (hfirst : (f.draw x y rows).2 = false) :
    ((f.draw x y rows).1.draw x y rows).2 = true ↔ ∃ row ∈ rows, row ≠ 0 := by
  have clear : ∀ c r, c < 8 → r < rows.length → (rows.getD r 0).getLsbD (7 - c) = true →
      f.pixel (x + c) (y + r) = false := by
    intro c r hc hr hbit
    by_contra hset
    have hcol := (f.draw_collision x y rows h).mpr ⟨c, r, hc, hr, hbit, Bool.eq_true_of_not_eq_false hset⟩
    exact nomatch hfirst.symm.trans hcol
  rw [f.second_draw_collision h, ← exists_set_bit_iff]
  refine exists₂_congr fun c r => and_congr_right fun hc => and_congr_right fun hr => ?_
  exact and_iff_left_of_imp (clear c r hc hr)

end

/-- Settles O37: a draw flips the pixels under the set bits and no other, and it reads them before it flips them. -/
theorem drawingTwiceRestores : Obligations.DrawingTwiceRestores := by
  intro f x y rows hlen
  have h : rows.length ≤ 32 := by omega
  exact ⟨f.draw_draw h, f.draw_collision x y rows h, f.second_draw_collision h, f.second_draw_collision_of_clear h,
    fun a b hne => (lit_iff x y rows a b).mp (f.lit_of_draw_changes h hne)⟩

/-! DXYN -/

/-- An instruction of format XYs, or XYN, on its fault condition takes that fault with its own word (R232). -/
theorem exec_faulted_wordXY {i : Instr} {op k : Nibble} {x y : Reg} {s : State} {c : FaultCause}
    (hi : i.nibbles = formatXY op x y k) (hf : faultOf s i = some c) :
    ∃ t, exec i s = .next t ∧ Faulted c (op ++ regNibble x ++ regNibble y ++ k) s t :=
  encode_patternXY hi ▸ exec_faulted hf

/-- The collision flag is 0 or 1 (R194). -/
theorem collisionFlag_zero_or_one (p : Bool) : collisionFlag p = 0 ∨ collisionFlag p = 1 := by
  cases p
  · exact .inl rfl
  · exact .inr rfl

/-- The collision flag is 1 exactly on a collision (R194). -/
theorem collisionFlag_eq_one_iff (p : Bool) : collisionFlag p = 1 ↔ p = true := by
  cases p <;> decide

/-- The framebuffer DXYN leaves is that of one draw of the N bytes at I (R194). -/
theorem State.drawSprite_fb (s : State) (x y : Reg) (n : Nat) :
    (s.drawSprite x y n).fb =
      (s.fb.draw ((s.getV x).toNat % 64) ((s.getV y).toNat % 32) (s.mem.readBytes s.i.toNat n)).1 := rfl

/-- VF after DXYN is the flag of that draw (R194). -/
theorem State.drawSprite_getV_vF (s : State) (x y : Reg) (n : Nat) :
    (s.drawSprite x y n).getV vF = collisionFlag
      (s.fb.draw ((s.getV x).toNat % 64) ((s.getV y).toNat % 32) (s.mem.readBytes s.i.toNat n)).2 :=
  State.getV_setV_same ..

section
variable (s : State) (x y : Reg) {n : Nat}

/-- A pixel under the byte at I + r after DXYN is the old one exclusive-or the bit there (R193). -/
theorem State.drawSprite_pixel_at (hn : n ≤ 32) {c r : Nat} (hc : c < 8) (hr : r < n) :
    (s.drawSprite x y n).fb.pixel ((s.getV x).toNat % 64 + c) ((s.getV y).toNat % 32 + r) =
      (s.fb.pixel ((s.getV x).toNat % 64 + c) ((s.getV y).toNat % 32 + r) ^^
        (s.mem.read (s.i.toNat + r)).getLsbD (7 - c)) := by
  rw [s.drawSprite_fb, s.fb.draw_pixel_at (by rwa [Memory.readBytes_length]) hc (by rwa [Memory.readBytes_length]),
    Memory.readBytes_getD _ _ _ _ hr]

/-- A pixel under no place of the sprite is kept by DXYN (R193). -/
theorem State.drawSprite_pixel_outside (hn : n ≤ 32) {a b : Nat}
    (hout : ∀ c r, c < 8 → r < n →
      ¬ (a % 64 = ((s.getV x).toNat % 64 + c) % 64 ∧ b % 32 = ((s.getV y).toNat % 32 + r) % 32)) :
    (s.drawSprite x y n).fb.pixel a b = s.fb.pixel a b := by
  rw [s.drawSprite_fb]
  exact s.fb.draw_pixel_outside (by rwa [Memory.readBytes_length]) (by rwa [Memory.readBytes_length])

/-- VF is 1 after DXYN exactly when a set bit of the bytes at I lay on a set pixel (R193, R194). -/
theorem State.drawSprite_vF_eq_one_iff (hn : n ≤ 32) :
    (s.drawSprite x y n).getV vF = 1 ↔ ∃ c r, c < 8 ∧ r < n ∧ (s.mem.read (s.i.toNat + r)).getLsbD (7 - c) = true ∧
      s.fb.pixel ((s.getV x).toNat % 64 + c) ((s.getV y).toNat % 32 + r) = true := by
  rw [s.drawSprite_getV_vF, collisionFlag_eq_one_iff, Framebuffer.draw_collision _ _ _ _ (by rwa [Memory.readBytes_length]),
    Memory.readBytes_length]
  refine exists₂_congr fun c r => and_congr_right fun _ => and_congr_right fun hr => ?_
  rw [Memory.readBytes_getD _ _ _ _ hr]

/-- DXYN inside memory, or of no rows, draws and advances (R194, D17). -/
theorem exec_drw_inside {s : State} (h : n = 0 ∨ s.i.toNat + n - 1 ≤ 0xFFF) :
    exec (.drw x y n) s = .next (s.drawSprite x y n).advance :=
  State.ifInMemory_inside _ _ _ _ (by omega)

end

/-- Settles O36: inside memory the draw of the bytes at I completes, beyond it MEM_BOUNDS is taken before any pixel is
written. -/
theorem drawXorsTheWrappedSprite : Obligations.DrawXorsTheWrappedSprite := by
  intro x y n s
  have hn : n.toNat ≤ 32 := by have := n.isLt; omega
  refine ⟨decode_wordXY (drw_nibbles x y n) (decide_eq_true n.isLt), fun inside => ?_, fun ⟨some_row, beyond⟩ => ?_⟩
  · exact ⟨_, exec_drw_inside x y inside, fun _ _ hc hr => s.drawSprite_pixel_at x y hn hc hr,
      fun _ _ hout => s.drawSprite_pixel_outside x y hn hout,
      s.drawSprite_getV_vF x y n.toNat ▸ collisionFlag_zero_or_one _, s.drawSprite_vF_eq_one_iff x y hn, rfl,
      retired_frame s (.drw x y n.toNat)⟩
  · exact exec_faulted_wordXY (drw_nibbles x y n) (if_pos (by omega))

end Sys2Proof.Machine
end

section
/-! PROOFS. 45_keyboard_timers.md: the key skips and the timer instructions. -/

namespace Sys2Proof.Machine

/-! The key skips -/

/-- A register whose value is that of a key names that key (R211). -/
theorem keyOf_eq_of_toNat {b : Byte} {k : Nibble} (h : b.toNat = k.toNat) : keyOf b = k := by
  have key : isKey b = true := (isKey_iff b).mpr (by have := k.isLt; omega)
  exact BitVec.eq_of_toNat_eq ((keyOf_toNat b key).trans h)

/-- Settles O38: a key in V[X] is below the fault bound, and its answer picks PC; beyond it KEY_RANGE is taken before the
query. -/
theorem keySkipsFollowTheAnswer : Obligations.KeySkipsFollowTheAnswer := by
  intro x s
  refine ⟨decode_wordXNN rfl rfl, decode_wordXNN rfl rfl, fun k hk => ?_, fun beyond => ?_⟩
  · have inRange : ¬ 0x0F < (s.getV x).toNat := by have := k.isLt; omega
    rw [← keyOf_eq_of_toNat hk]
    exact ⟨⟨_, exec_of_no_fault (if_neg inRange), retired_pc s (.skp x), rfl, retired_frame s (.skp x)⟩,
      ⟨_, exec_of_no_fault (if_neg inRange), retired_pc s (.sknp x), rfl, retired_frame s (.sknp x)⟩⟩
  · exact ⟨exec_faulted_wordXNN rfl (if_pos beyond), exec_faulted_wordXNN rfl (if_pos beyond)⟩

/-! The timer instructions -/

/-- Settles O42: no timer instruction faults, and each writes one register or one timer. -/
theorem timerInstructionsCopyOneByte : Obligations.TimerInstructionsCopyOneByte := fun x s =>
  ⟨⟨decode_wordXNN rfl rfl, exec_sets_register rfl⟩,
    ⟨decode_wordXNN rfl rfl, _, rfl, rfl, rfl, retired_frame s (.ldDtVx x)⟩,
    ⟨decode_wordXNN rfl rfl, _, rfl, rfl, rfl, retired_frame s (.ldStVx x)⟩⟩

end Sys2Proof.Machine
end

section
/-! PROOFS. 60_exceptions.md, faults: which conditions raise one, what it records, and how a CPU step and a run end. -/

namespace Sys2Proof.Machine

/-! Faults and completions -/

/-- A running core with an illegal word at PC raises DECODE_ERROR with that word (R234). -/
theorem cycleRun_illegal {s : State} {e : DecodeError} (hp : s.pc.toNat ≤ 0xFFE) (hd : decode s.fetch = .error e) :
    cycleRun s = .next (s.raise .decodeError s.fetch) := by
  have fetches : ¬ s.runsOffEnd = true := by
    rw [State.runsOffEnd_iff]
    omega
  rw [cycleRun, if_neg fetches, hd]

/-- The word of the fault record is in the frame of every instruction that retires (R34). -/
theorem retired_faultInfo (s : State) (i : Instr) : (retired s i).faultInfo = s.faultInfo := by
  refine (retired_frame s i).faultInfo ?_
  cases i <;> rfl

/-- An instruction that retires keeps Status, or is FX0A, which suspends. -/
theorem retired_status_or_suspends (s : State) (i : Instr) :
    (retired s i).status = s.status ∨ (retired s i).status = .waitKey ∧ ∃ x, i = .ldVxK x := by
  refine (retired_status s i).imp_right ?_
  rintro ⟨x, rfl⟩
  exact ⟨rfl, x, rfl⟩

/-- Settles O15: an instruction faults on its condition of R231 and retires on any other. -/
theorem faultsAreExactlyTheListed : Obligations.FaultsAreExactlyTheListed := by
  refine ⟨rfl, fun s e hs hp hd => ?_, fun i s c => exec_faulted, fun i s hf => ?_⟩
  · exact ⟨_, (cycle_run hs).trans (cycleRun_illegal hp hd), s.raise_faulted .decodeError s.fetch⟩
  · exact ⟨_, exec_of_no_fault hf, retired_faultCause s i, retired_faultInfo s i, retired_status_or_suspends s i⟩

/-! How a CPU step ends -/

/-- A CPU step of a running core halts, raises a fault with the word at PC, suspends as the FX0A at PC, or runs on (R40). -/
theorem cycleRun_ends {s t : State} (h : cycleRun s = .next t) :
    t = s.setStatus .halted ∨ (∃ c, c ≠ .none ∧ t = s.raise c s.fetch) ∨
      (∃ x, decode s.fetch = .ok (.ldVxK x) ∧ t = s.suspend x) ∨ t.status = s.status := by
  rcases cycleRun_cases h with ⟨-, rfl⟩ | ⟨-, i, hd, hx⟩ | ⟨-, e, -, rfl⟩
  · exact .inl rfl
  · rcases exec_cases hx with ⟨c, hf, rfl⟩ | ⟨-, rfl⟩
    · rw [encode_of_decode hd]
      exact .inr (.inl ⟨c, fun e => faultOf_ne_none s i (e ▸ hf), rfl⟩)
    · rcases retired_status s i with kept | ⟨x, rfl⟩
      · exact .inr (.inr (.inr kept))
      · exact .inr (.inr (.inl ⟨x, hd, rfl⟩))
  · exact .inr (.inl ⟨.decodeError, nofun, rfl⟩)

/-- Settles O16: of the ways a CPU step ends, only the raised fault has Status FAULT. -/
theorem faultsArePrecise : Obligations.FaultsArePrecise := by
  intro s t hs hc ht
  rcases cycleRun_ends ((cycle_run hs).symm.trans hc) with rfl | ⟨c, hne, rfl⟩ | ⟨x, -, rfl⟩ | kept
  · cases ht
  · exact ⟨c, hne, s.raise_faulted c s.fetch⟩
  · cases ht
  · cases hs.symm.trans (kept.symm.trans ht)

/-- A CPU step enters WAIT_KEY only as the FX0A at PC (R247). -/
theorem cycle_suspends {s t : State} (hs : s.status ≠ .waitKey) (hc : cycle s = .next t) (ht : t.status = .waitKey) :
    ∃ x, decode s.fetch = .ok (.ldVxK x) ∧ t = s.suspend x := by
  rcases cycle_cases hc with ⟨-, hr⟩ | ⟨-, rfl⟩
  · rcases cycleRun_ends hr with rfl | ⟨c, -, rfl⟩ | suspends | kept
    · cases ht
    · cases ht
    · exact suspends
    · exact absurd (kept.symm.trans ht) hs
  · exact absurd ht hs

/-- No press leads to WAIT_KEY from another Status. -/
theorem keyEvent_not_waitKey {s : State} (k : Nibble) (hs : s.status ≠ .waitKey) : (s.keyEvent k).status ≠ .waitKey := by
  rcases s.keyEvent_cases k with ⟨hw, -⟩ | ⟨-, e⟩
  · exact absurd hw hs
  · rwa [e]

/-- Settles O41: of the moves, only the CPU's enters WAIT_KEY. -/
theorem onlyTheKeyWaitSuspends : Obligations.OnlyTheKeyWaitSuspends := by
  intro s t hs h ht
  rw [← nextMove_status] at hs
  rcases step_cases h with ⟨-, hc⟩ | ⟨-, rfl⟩ | ⟨-, rfl⟩ | ⟨k, -, rfl⟩
  · obtain ⟨x, hd, rfl⟩ := cycle_suspends hs hc ht
    exact ⟨x, nextMove_fetch s ▸ hd, rfl, nextMove_pc s⟩
  · exact absurd ht hs
  · exact absurd ht hs
  · exact absurd ht (keyEvent_not_waitKey k hs)

/-! How a run ends -/

/-- A step answers the state after the next move. -/
theorem step_eq_stepped (s : State) : step s = .next (stepped s) := by
  rw [stepped_eq_performed]
  exact perform_eq_performed (nextMove s).1 (nextMove s).2

/-- A run from HALTED completes at once (R256). -/
theorem runLoop_halted {s : State} (k : Nat) (hs : s.status = .halted) : runLoop (k + 1) s = .completed s := by
  simp only [runLoop, hs]

/-- A run from FAULT fails at once (R256). -/
theorem runLoop_fault {s : State} (k : Nat) (hs : s.status = .fault) : runLoop (k + 1) s = .failed s := by
  simp only [runLoop, hs]

/-- A run from RUN or WAIT_KEY goes on after the next move (R256). -/
theorem runLoop_moves {s : State} (k : Nat) (hs : s.status = .run ∨ s.status = .waitKey) :
    runLoop (k + 1) s = runLoop k (stepped s) := by
  rcases hs with hs | hs <;> simp only [runLoop, hs, step_eq_stepped]

/-- What a run ended with: the invariant, and the Status its result stands for (R256). -/
def RunResult.sound : RunResult → Prop
  | .completed t => t.Inv ∧ t.status = .halted
  | .failed t => t.Inv ∧ t.status = .fault
  | .unfinished _ => True

/-- A run from a state of the invariant ends soundly, by induction on the fuel. -/
theorem runLoop_sound (n : Nat) {s : State} (h : s.Inv) : (runLoop n s).sound := by
  induction n generalizing s with
  | zero => trivial
  | succ n ih =>
    have goesOn : (runLoop n (stepped s)).sound := ih (everyStepKeepsTheInvariant s _ h (step_eq_stepped s))
    cases hs : s.status with
    | run => rwa [runLoop_moves n (.inl hs)]
    | waitKey => rwa [runLoop_moves n (.inr hs)]
    | halted => rw [runLoop_halted n hs]; exact ⟨h, hs⟩
    | fault => rw [runLoop_fault n hs]; exact ⟨h, hs⟩

/-- Settles O52: the invariant holds where the run ends, and it gives the fault record and PC of each Status. -/
theorem runsEndHaltedOrWithARecordedFault : Obligations.RunsEndHaltedOrWithARecordedFault := by
  intro n s t hinv
  refine ⟨fun hrun => ?_, fun hrun => ?_⟩
  · obtain ⟨h, hs⟩ : (RunResult.completed t).sound := hrun ▸ runLoop_sound n hinv
    exact ⟨hs, h.cause.mpr (by rw [hs]; exact nofun), h.halted hs⟩
  · obtain ⟨h, hs⟩ : (RunResult.failed t).sound := hrun ▸ runLoop_sound n hinv
    exact ⟨hs, fun hnone => h.cause.mp hnone hs, (h.faulted hs).2⟩

end Sys2Proof.Machine
end

section
/-! PROOFS. 60_exceptions.md, timers: what a tick does, that ticks keep coming, and that a timer without sets runs down. -/

namespace Sys2Proof.Machine

/-! The two timers -/

/-- DT and ST, for what R241 says of both (R27, R28). -/
inductive Timer where
  | dt
  | st

/-- The value of a timer (R27, R28). -/
def Timer.read : Timer → State → Byte
  | .dt, s => s.dt
  | .st, s => s.st

/-- The move that ticks a timer (R241). -/
def Timer.move : Timer → Move
  | .dt => .tickDt
  | .st => .tickSt

/-- The instruction that sets a timer: FX15 or FX18 (R216, R218). -/
def Timer.setter : Timer → Reg → Instr
  | .dt, x => .ldDtVx x
  | .st, x => .ldStVx x

/-- What a tick may change: the timer, and the order of moves (log 1). -/
def Timer.frame : Timer → May
  | .dt => { dt := true, order := true }
  | .st => { st := true, order := true }

/-- Taking a move off keeps the timers. -/
@[simp] theorem Timer.read_nextMove (T : Timer) (s : State) : T.read (nextMove s).2 = T.read s := by
  obtain ⟨_, _, e⟩ := nextMove_state s
  rw [e]
  cases T <;> rfl

/-- A tick lowers its timer by one unless it is 0, in every Status (R241, log 14). -/
theorem Timer.step_ticks (T : Timer) {s : State} (h : (nextMove s).1 = T.move) :
    ∃ t, step s = .next t ∧ (T.read t).toNat = (T.read s).toNat - 1 ∧ t.pc = s.pc ∧ Frame T.frame s t := by
  have ticks : step s = perform T.move (nextMove s).2 := by rw [step, h]
  rw [← T.read_nextMove]
  cases T
  case dt => exact ⟨_, ticks, tick_toNat _, nextMove_pc s, (nextMove_frame s rfl).setDt _ rfl⟩
  case st => exact ⟨_, ticks, tick_toNat _, nextMove_pc s, (nextMove_frame s rfl).setSt _ rfl⟩

/-- Settles O43: each of the two moves ticks its timer. -/
theorem ticksCountDownToZero : Obligations.TicksCountDownToZero := fun _ =>
  ⟨Timer.dt.step_ticks, Timer.st.step_ticks⟩

/-! A timer and the other moves -/

/-- Of the instructions that retire, only its setter changes a timer. -/
theorem Timer.read_retired (T : Timer) (s : State) (i : Instr) : T.read (retired s i) = T.read s ∨ ∃ x, i = T.setter x := by
  have kept := retired_frame s i
  cases T
  case dt =>
    cases i
    case ldDtVx x => exact .inr ⟨x, rfl⟩
    all_goals exact .inl (kept.dt rfl)
  case st =>
    cases i
    case ldStVx x => exact .inr ⟨x, rfl⟩
    all_goals exact .inl (kept.st rfl)

/-- An instruction keeps a timer, or is its setter. -/
theorem Timer.read_exec (T : Timer) {i : Instr} {s t : State} (h : exec i s = .next t) :
    T.read t = T.read s ∨ ∃ x, i = T.setter x := by
  rcases exec_cases h with ⟨c, -, rfl⟩ | ⟨-, rfl⟩
  · cases T <;> exact .inl rfl
  · exact T.read_retired s i

/-- A CPU step keeps a timer, or runs its setter. -/
theorem Timer.read_cycle (T : Timer) {s t : State} (h : cycle s = .next t) :
    T.read t = T.read s ∨ ∃ x, s.status = .run ∧ s.pc.toNat ≤ 0xFFE ∧ decode s.fetch = .ok (T.setter x) := by
  rcases cycle_cases h with ⟨hs, hr⟩ | ⟨-, rfl⟩
  · rcases cycleRun_cases hr with ⟨-, rfl⟩ | ⟨hp, i, hd, hx⟩ | ⟨-, e, -, rfl⟩
    · cases T <;> exact .inl rfl
    · refine (T.read_exec hx).imp_right ?_
      rintro ⟨x, rfl⟩
      exact ⟨x, hs, hp, hd⟩
    · cases T <;> exact .inl rfl
  · exact .inl rfl

/-- A press keeps the timers. -/
theorem Timer.read_keyEvent (T : Timer) (s : State) (k : Nibble) : T.read (s.keyEvent k) = T.read s := by
  rcases s.keyEvent_cases k with ⟨-, e⟩ | ⟨-, e⟩ <;> rw [e]
  cases T <;> rfl

/-- A tick of either timer raises none. -/
theorem Timer.read_ticks_le (T : Timer) (s : State) :
    (T.read s.tickDt).toNat ≤ (T.read s).toNat ∧ (T.read s.tickSt).toNat ≤ (T.read s).toNat := by
  cases T
  case dt => exact ⟨(tick_toNat s.dt).trans_le (Nat.sub_le _ _), le_rfl⟩
  case st => exact ⟨le_rfl, (tick_toNat s.st).trans_le (Nat.sub_le _ _)⟩

/-- A move that does not run its setter raises no timer. -/
theorem Timer.read_stepped_le (T : Timer) {s : State} (h : ∀ x, ¬ runsNext s (T.setter x)) :
    (T.read (stepped s)).toNat ≤ (T.read s).toNat := by
  rw [← T.read_nextMove s]
  rcases step_cases (step_eq_stepped s) with ⟨hm, hc⟩ | ⟨-, e⟩ | ⟨-, e⟩ | ⟨k, -, e⟩
  · rcases T.read_cycle hc with kept | ⟨x, hs, hp, hd⟩
    · rw [kept]
    · rw [nextMove_status] at hs
      rw [nextMove_pc] at hp
      rw [nextMove_fetch] at hd
      exact absurd ⟨hm, hs, hp, hd⟩ (h x)
  · rw [e]; exact (T.read_ticks_le _).1
  · rw [e]; exact (T.read_ticks_le _).2
  · rw [e, T.read_keyEvent]

/-! DT and the instructions that do not touch it -/

theorem State.push?_setDt (s : State) (b : Byte) (w : Word) :
    (s.setDt b).push? w = (s.push? w).map fun t => t.setDt b := by
  unfold State.push?
  rw [apply_dite (Option.map _)]
  rfl

theorem State.pop?_setDt (s : State) (b : Byte) : (s.setDt b).pop? = s.pop?.map fun p => (p.1, p.2.setDt b) := by
  unfold State.pop?
  rw [apply_dite (Option.map _)]
  rfl

/-- Another DT commutes with every retiring instruction but FX07, which reads it, and FX15, which overwrites it. -/
theorem retired_setDt {i : Instr} (s : State) (b : Byte) (hread : ∀ x, i ≠ .ldVxDt x) (hset : ∀ x, i ≠ .ldDtVx x) :
    retired (s.setDt b) i = (retired s i).setDt b := by
  cases i
  case ldVxDt x => exact absurd rfl (hread x)
  case ldDtVx x => exact absurd rfl (hset x)
  case call addr =>
    rw [retired_call, retired_call, State.push?_setDt, State.setDt_pc]
    cases s.push? s.pc <;> rfl
  case ret =>
    rw [retired_ret, retired_ret, State.pop?_setDt]
    cases s.pop? <;> rfl
  all_goals rfl

/-- Whether an instruction faults does not depend on DT. -/
theorem faultOf_setDt (s : State) (b : Byte) (i : Instr) : faultOf (s.setDt b) i = faultOf s i := by
  cases i <;> rfl

/-- Settles O45: a fault keeps DT, and so does an instruction that retires, whose effect is the same under another DT. -/
theorem dtTicksCommuteWithOtherInstructions : Obligations.DtTicksCommuteWithOtherInstructions := by
  intro i s t hread hset h
  have sameFault : faultOf s.tickDt i = faultOf s i := faultOf_setDt s (tick s.dt) i
  rcases exec_cases h with ⟨c, hf, rfl⟩ | ⟨hf, rfl⟩
  · exact exec_of_fault i s.tickDt c (sameFault.trans hf)
  · have kept : (retired s i).dt = s.dt := (Timer.dt.read_retired s i).resolve_right fun ⟨x, e⟩ => hset x e
    calc exec i s.tickDt
        = .next (retired (s.setDt (tick s.dt)) i) := exec_of_no_fault (sameFault.trans hf)
      _ = .next (retired s i).tickDt := by rw [retired_setDt s _ hread hset, State.tickDt, kept]

/-! Fairness -/

/-- Given moves begin no round. -/
theorem performAll_rounds (ms : List Move) (s : State) : (performAll ms s).rounds = s.rounds := by
  induction ms generalizing s with
  | nil => rfl
  | cons m ms ih => rw [performAll, ih, performed_rounds]

/-- After the settled moves those settled behind them are left, in the same round. -/
theorem after_settled {s : State} {ms rest : List Move} (h : s.schedule = ms ++ rest) :
    (after ms.length s).schedule = rest ∧ (after ms.length s).rounds = s.rounds := by
  have made : after ms.length s = (performAll ms s).setSchedule rest := by
    rw [← agentsMoveInAnyOrder ms rest s, ← h]
    rfl
  rw [made]
  exact ⟨rfl, performAll_rounds ms s⟩

/-- The state with the moves of a new round settled. -/
def State.beginRound (s : State) : State :=
  s.setOrder (Config.freeMoves s.rounds ++ [closingTick s.rounds]) (s.rounds + 1)

/-- With no move settled, the next move is the first of a new round. -/
theorem nextMove_beginRound {s : State} (h : s.schedule = []) : nextMove s.beginRound = nextMove s := by
  rw [nextMove_nil s h, State.beginRound, ← roundMoves_eq]
  exact nextMove_cons _ _ _ rfl

/-- A step depends on the next move and the state left by taking it off, and on nothing else. -/
theorem stepped_congr {s t : State} (h : nextMove s = nextMove t) : stepped s = stepped t := by
  rw [stepped_eq_performed, stepped_eq_performed, h]

/-- States with the same next move have the same moves after it. -/
theorem nextMove_after_congr {s t : State} (h : nextMove s = nextMove t) (n : Nat) :
    nextMove (after n s) = nextMove (after n t) := by
  cases n with
  | zero => exact h
  | succ n => rw [after, after, stepped_congr h]

/-- With no move settled the round's closing tick comes, and with it the round is over (R243). -/
theorem closingTick_comes {s : State} (h : s.schedule = []) :
    ∃ n, (nextMove (after n s)).1 = closingTick s.rounds ∧
      (after (n + 1) s).schedule = [] ∧ (after (n + 1) s).rounds = s.rounds + 1 := by
  have same := nextMove_beginRound h
  have atTick := (after_settled (s := s.beginRound) (ms := Config.freeMoves s.rounds) rfl).1
  have atEnd := after_settled (s := s.beginRound) (ms := Config.freeMoves s.rounds ++ [closingTick s.rounds])
    (List.append_nil _).symm
  refine ⟨(Config.freeMoves s.rounds).length, ?_, ?_⟩
  · rw [← nextMove_after_congr same, nextMove_cons _ _ _ atTick]
  · rw [List.length_append, List.length_singleton] at atEnd
    rw [after, ← stepped_congr same]
    exact atEnd

/-- From every state the closing ticks of two rounds in a row come (R243). -/
theorem closingTicks_come (s : State) :
    ∃ r, (∃ n, (nextMove (after n s)).1 = closingTick r) ∧ ∃ n, (nextMove (after n s)).1 = closingTick (r + 1) := by
  obtain ⟨settled, -⟩ := after_settled (List.append_nil s.schedule).symm
  obtain ⟨n, first, ended, round⟩ := closingTick_comes settled
  obtain ⟨m, second, -⟩ := closingTick_comes ended
  rw [← after_add] at first
  rw [round, ← after_add, ← after_add] at second
  exact ⟨_, ⟨_, first⟩, ⟨_, second⟩⟩

/-- An even round ends with a DT tick. -/
theorem closingTick_even {r : Nat} (h : r % 2 = 0) : closingTick r = .tickDt := if_pos h

/-- An odd round ends with an ST tick. -/
theorem closingTick_odd {r : Nat} (h : r % 2 = 1) : closingTick r = .tickSt := if_neg (by omega)

/-- Settles O54: of two rounds in a row one ends with a DT tick and the other with an ST tick. -/
theorem everyTimerTicksAgain : Obligations.EveryTimerTicksAgain := by
  intro s
  obtain ⟨r, first, second⟩ := closingTicks_come s
  rcases Nat.mod_two_eq_zero_or_one r with h | h
  · rw [closingTick_even h] at first
    rw [closingTick_odd (by omega)] at second
    exact ⟨first, second⟩
  · rw [closingTick_odd h] at first
    rw [closingTick_even (by omega)] at second
    exact ⟨second, first⟩

/-- From every state each timer ticks again (R243). -/
theorem Timer.ticks_again (T : Timer) (s : State) : ∃ n, (nextMove (after n s)).1 = T.move := by
  cases T
  case dt => exact (everyTimerTicksAgain s).1
  case st => exact (everyTimerTicksAgain s).2

/-! Running down -/

/-- A sequence of numbers that never rises, and falls again while it is not 0, is 0 from some place on. -/
theorem eventually_zero {f : Nat → Nat} (never_rises : Antitone f) (falls : ∀ n, f n ≠ 0 → ∃ m, n < m ∧ f m < f n) :
    ∃ n, ∀ m, n ≤ m → f m = 0 := by
  have least : f (Function.argmin f) = 0 := by
    by_contra hne
    obtain ⟨m, -, hlt⟩ := falls _ hne
    exact Function.not_lt_argmin f m hlt
  exact ⟨_, fun m hm => Nat.le_zero.mp (least ▸ never_rises hm)⟩

/-- Absent sets a timer never grows, falls below any value but 0, and reaches 0 and stays there (R241, R243). -/
theorem Timer.runs_down (T : Timer) {s : State} (h : ∀ n x, ¬ runsNext (after n s) (T.setter x)) :
    (∀ n, (T.read (after (n + 1) s)).toNat ≤ (T.read (after n s)).toNat) ∧
    (∀ n, T.read (after n s) ≠ 0 → ∃ m, n < m ∧ (T.read (after m s)).toNat < (T.read (after n s)).toNat) ∧
    (∃ n, ∀ m, n ≤ m → T.read (after m s) = 0) := by
  have never_rises : ∀ n, (T.read (after (n + 1) s)).toNat ≤ (T.read (after n s)).toNat := fun n => by
    rw [after_succ]
    exact T.read_stepped_le (h n)
  have antitone : Antitone fun n => (T.read (after n s)).toNat := antitone_nat_of_succ_le never_rises
  have falls : ∀ n, (T.read (after n s)).toNat ≠ 0 →
      ∃ m, n < m ∧ (T.read (after m s)).toNat < (T.read (after n s)).toNat := by
    intro n hne
    obtain ⟨k, hk⟩ := T.ticks_again (after n s)
    rw [← after_add] at hk
    obtain ⟨t, hstep, ticked, -⟩ := T.step_ticks hk
    obtain rfl := Host.Outcome.next.inj ((step_eq_stepped _).symm.trans hstep)
    rw [← after_succ] at ticked
    have until_tick : (T.read (after (n + k) s)).toNat ≤ (T.read (after n s)).toNat := antitone (Nat.le_add_right n k)
    exact ⟨n + k + 1, by omega, by omega⟩
  obtain ⟨n, zero⟩ := eventually_zero antitone falls
  exact ⟨never_rises, fun n hne => falls n (BitVec.toNat_ne.mp hne), n, fun m hm => BitVec.eq_of_toNat_eq (zero m hm)⟩

/-- Settles O55: no move but its setter raises a timer, and its ticks keep coming. -/
theorem timersRunDownWithoutSets : Obligations.TimersRunDownWithoutSets := fun _ =>
  ⟨Timer.dt.runs_down, Timer.st.runs_down⟩

end Sys2Proof.Machine
end

section
/-! PROOFS. 70_reset_and_hazards.md: the state after construction, the first CPU step of a loaded program, and a timer read
after its set. -/

namespace Sys2Proof.Machine

/-! Ticks between a set and a read -/

/-- Any number of DT ticks takes that number off DT, down to 0 (R241). -/
theorem State.tickDt_iterate_dt (n : Nat) (s : State) : (State.tickDt^[n] s).dt.toNat = s.dt.toNat - n := by
  induction n with
  | zero => rfl
  | succ n ih =>
    calc (State.tickDt^[n + 1] s).dt.toNat
        = (tick (State.tickDt^[n] s).dt).toNat := by rw [Function.iterate_succ_apply', State.tickDt, State.setDt_dt]
      _ = s.dt.toNat - n - 1 := by rw [tick_toNat, ih]
      _ = s.dt.toNat - (n + 1) := Nat.sub_sub _ _ _

/-- Settles O44: the set puts V[X] in DT, and the read copies what the ticks left there. -/
theorem timerReadAfterSetAndTicks : Obligations.TimerReadAfterSetAndTicks := by
  intro x y n s t hset
  obtain rfl : (s.setDt (s.getV x)).advance = t := Host.Outcome.next.inj hset
  refine ⟨_, rfl, ?_⟩
  rw [State.advance_getV, State.getV_setV_same, State.tickDt_iterate_dt, State.advance_dt, State.setDt_dt]

/-! The first CPU step -/

/-- A loaded program's first two bytes are the word at PC (R64, R273). -/
theorem boot_fetch (hi lo : Byte) (rest : List Byte) : (boot (hi :: lo :: rest)).fetch = hi ++ lo := by
  have both : 1 < loadCount programBase (hi :: lo :: rest) := by
    simp only [loadCount, List.length_cons, memSize, programBase]
    omega
  have first : (boot (hi :: lo :: rest)).mem.read programBase = hi := State.load_read _ (Nat.zero_lt_of_lt both)
  have second : (boot (hi :: lo :: rest)).mem.read (programBase + 1) = lo := State.load_read _ both
  calc (boot (hi :: lo :: rest)).fetch
      = (boot (hi :: lo :: rest)).mem.read programBase ++ (boot (hi :: lo :: rest)).mem.read (programBase + 1) := rfl
    _ = hi ++ lo := by rw [first, second]

/-- Settles O49: the load leaves PC and Status as constructed, and the word at PC is the program's first. -/
theorem bootedProgramIsFetchedFirst : Obligations.BootedProgramIsFetchedFirst := by
  intro hi lo rest i hd
  have entry : (boot (hi :: lo :: rest)).pc.toNat = 0x200 := rfl
  have runs : (boot (hi :: lo :: rest)).status = .run := rfl
  refine ⟨entry, (cycle_run runs).trans (cycleRun_decoded ?_ ?_)⟩
  · rw [entry]
    decide
  · rwa [boot_fetch]

/-! The state after construction -/

/-- The 16 glyphs of R71, each the five bytes of its rows from top to bottom as one number. -/
def glyphs : List Nat :=
  [0xF0909090F0, 0x2060202070, 0xF010F080F0, 0xF010F010F0, 0x9090F01010, 0xF080F010F0, 0xF080F090F0, 0xF010204040,
   0xF090F090F0, 0xF090F010F0, 0xF090F09090, 0xE090E090E0, 0xF0808080F0, 0xE0909090E0, 0xF080F080F0, 0xF080F08080]

/-- Row k of glyph d is the reset byte at 5 d + k (R71). -/
theorem Memory.unlisted_glyph :
    ∀ d < 16, ∀ k < 5, (Memory.unlisted (5 * d + k)).toNat = glyphs.getD d 0 / 256 ^ (4 - k) % 256 := by
  decide

/-- Past the font, the reset contents are 0 (R30, D19). -/
theorem Memory.unlisted_past_font {a : Nat} (h : 0x50 ≤ a) : Memory.unlisted a = 0 :=
  List.getD_eq_default _ _ h

/-- Memory after construction is the reset contents (R270). -/
@[simp] theorem State.reset_read (a : Nat) : State.reset.mem.read a = Memory.unlisted a := rfl

/-- Every register after construction is 0 (R20). -/
@[simp] theorem State.reset_getV (r : Reg) : State.reset.getV r = 0 := Vector.getElem_replicate _

/-- Settles O47: the registers and slots are copies of 0, memory is the reset contents, the framebuffer is blank, and every
other piece is a literal of the construction. -/
theorem resetLeavesTheListedState : Obligations.ResetLeavesTheListedState := by
  refine ⟨State.reset_getV, rfl, rfl, fun k => Vector.getElem_replicate _, rfl, rfl, rfl, ?font, ?zero,
    Framebuffer.pixel_blank, rfl, rfl, rfl, rfl⟩
  case font =>
    intro d k hd hk
    rw [State.reset_read]
    exact Memory.unlisted_glyph d hd k hk
  case zero =>
    intro a ha
    rw [State.reset_read, Memory.unlisted_past_font ha]

end Sys2Proof.Machine
end

section
/-! PROOFS. The sample words (95_test_vectors.md S7, S10 and part 2): the legal ones by the round trip, the illegal ones by
the row of their nibbles. -/

namespace Sys2Proof

/-- A word decodes to the well-formed instruction whose encoding it is (R92, R95). -/
theorem decode_of_encode_eq {w : Word} {i : Instr} (hw : encode i = w) (hi : i.wellFormed = true) : decode w = .ok i :=
  hw ▸ decodeOfEncodeIsTheInstruction i hi

/-- Settles O5: each legal word is the encoding of its instruction, and the nibbles of the other two are in a row of R97. -/
theorem sampleWordsDecode : Obligations.SampleWordsDecode := by
  refine ⟨?cls, ?jp, ?ldByte, ?addByte, ?subReg, ?drw, ?skp, ?ldVxK, ?storeRegs, ?alu, ?machineCall⟩
  case alu => -- 8XYN with N = 8
    have nibbles : splitWord 0x8128 = ⟨0x8, 0x1, 0x2, 0x8⟩ := by decide
    rw [decode, nibbles]
    rfl
  case machineCall => -- 0NNN, neither 00E0 nor 00EE
    have nibbles : splitWord 0x0123 = ⟨0x0, 0x1, 0x2, 0x3⟩ := by decide
    rw [decode, nibbles]
    rfl
  all_goals exact decode_of_encode_eq (by decide) rfl

end Sys2Proof
end
